-- ==== Sys2Proof/Word.lean ====
section
/-! DEFINITION. The two bit widths of the hardware: 32-bit registers and command words (spec R8, R120)
and 8-bit cells (spec R7). -/

namespace Sys2Proof

/-- A cell of buffer memory or a lane of the block register: 8 bits (R7, R15). -/
abbrev Byte := BitVec 8

/-- A register or a command word: 32 bits (R8, R120). -/
abbrev Word := BitVec 32

end Sys2Proof
end

