-- ==== Sys2Proof/Config.lean ====
section
/-! DEFINITION. What an implementation fixes (the three parameters of spec R8) and the one free value
the spec leaves open (R97, R103). -/

namespace Sys2Proof

/-- The parameters of R8, as plain data that State carries and no step changes. -/
structure Config where
  /-- `BUF_SIZE`, the size of buffer memory in bytes (R8, R56). -/
  bufSize : Nat
  /-- `REG_BASE`, the host address of the 256-byte register region (R8, R80). -/
  regBase : Nat
  /-- `BUF_BASE`, the host address of the buffer region (R8, R80). -/
  bufBase : Nat
  deriving DecidableEq, Repr

/-- The parameters the state after reset carries. DESIGN CHOICE, log 1 (unsafe for a claim that
rests on them): the spec leaves all three open; 1024 is the size its examples assume (R8). -/
def Config.reference : Config where
  bufSize := 1024
  regBase := 0
  bufBase := 0x1000

/-- The free bytes ("draws") of R97 and R103: draw number `n` of a run. It has no body, so nothing
can be proved of its values. DESIGN CHOICE, logs 2 and 4 (safe). -/
opaque Config.freeByte : Nat → Byte

end Sys2Proof
end

