-- ==== Sys2Proof/Syntax.lean ====
section
/-! DEFINITION. The command set BXC-1 (spec R123): one constructor per row of the opcode table. A
command word has no operand field (R122), so no constructor has an argument. -/

namespace Sys2Proof

/-- The seven commands of R123. -/
inductive Instr where
  /-- NOP, OP 0x0 (R161). -/
  | nop
  /-- XL.ENC, OP 0x1 (R190). -/
  | xlEnc
  /-- XL.DEC, OP 0x2 (R191). -/
  | xlDec
  /-- XL.ENCB, OP 0x3 (R192). -/
  | xlEncB
  /-- XL.DECB, OP 0x4 (R193). -/
  | xlDecB
  /-- RPK.ENC, OP 0x5 (R239). -/
  | rpkEnc
  /-- RPK.DEC, OP 0x6 (R246). -/
  | rpkDec
  deriving DecidableEq, Repr

end Sys2Proof
end

