-- ==== Sys2Proof/WellFormed.lean ====
section
/-! DEFINITION. The checks of well-formedness: of a command (none can fail, R122), of a command word
(R121, R124) and of the parameters (R8). -/

namespace Sys2Proof

/-- Every command is well formed: R122 gives a command no operand field that could be wrong. -/
def Instr.wf : Instr → Bool
  | .nop => true
  | .xlEnc => true
  | .xlDec => true
  | .xlEncB => true
  | .xlDecB => true
  | .rpkEnc => true
  | .rpkDec => true

/-- A command word is well formed iff bits 31:4 are 0 and OP is not one of the reserved values 0x7
to 0xF (R121, R124). -/
def commandWordWf (w : Word) : Bool :=
  decide (w.toNat / 16 = 0) && decide (w.toNat % 16 < 7)

/-- The constraint of R8 on the parameters: `16 ≤ BUF_SIZE ≤ 2^31`; none on the two bases. -/
def Config.wf (c : Config) : Bool :=
  decide (16 ≤ c.bufSize) && decide (c.bufSize ≤ 2 ^ 31)

end Sys2Proof
end

