-- ==== Sys2Proof/Decode.lean ====
section
/-! DEFINITION. Decoding of a command word (spec R121, R123–R125), total and rejecting by name, the
encoder written from the same table, and the host's view of the decoder. -/

namespace Sys2Proof

/-- Why a command word is illegal (R124). -/
inductive DecodeError where
  /-- RSV, bits 31:4, is not 0. -/
  | reservedBits
  /-- OP is one of 0x7 to 0xF. -/
  | reservedOpcode
  deriving DecidableEq, Repr

/-- OP, bits 3:0 of a command word (R121). -/
def opField (w : Word) : BitVec 4 := w.extractLsb' 0 4

/-- RSV, bits 31:4 of a command word (R121). -/
def rsvField (w : Word) : BitVec 28 := w.extractLsb' 4 28

/-- The command an OP value names (R123), none for the reserved values. -/
def opcodeInstr (op : BitVec 4) : Option Instr :=
  match op.toNat with
  | 0 => some .nop
  | 1 => some .xlEnc
  | 2 => some .xlDec
  | 3 => some .xlEncB
  | 4 => some .xlDecB
  | 5 => some .rpkEnc
  | 6 => some .rpkDec
  | _ => none

/-- The decoding procedure of R125. -/
def decode (w : Word) : Except DecodeError Instr :=
  if rsvField w = 0 then
    match opcodeInstr (opField w) with
    | some i => .ok i
    | none => .error .reservedOpcode
  else .error .reservedBits

/-- `OP(d)`, the OP value of a command (R123). -/
def opcode : Instr → BitVec 4
  | .nop => 0x0
  | .xlEnc => 0x1
  | .xlDec => 0x2
  | .xlEncB => 0x3
  | .xlDecB => 0x4
  | .rpkEnc => 0x5
  | .rpkDec => 0x6

/-- The command word of a command: RSV 0, then OP (R121, R123). -/
def encode (i : Instr) : Word := 0#28 ++ opcode i

/-- What the decoder reads from a table row's bits `w`, of which the lowest `nbits` count; the bits
above are 0. A command is one 32-bit word (R120), so a value that does not fit one is no command. -/
def decodeTableWord (nbits w : Nat) : Option Instr :=
  let v := w % 2 ^ nbits
  if v < 2 ^ 32 then
    match decode (BitVec.ofNat 32 v) with
    | .ok i => some i
    | .error _ => none
  else none

end Sys2Proof
end

