-- ==== Sys2Proof/Machine/State.lean ====
section
/-! DEFINITION. The state of the block as plain data: every register of spec R32 that has storage, the
hidden registers of R60, buffer memory (R56), the parameters (R8), and three fields of the model's
own (`draws`, `inputs`, `bus`). Reset values: R65. -/

namespace Sys2Proof.Machine

/-- The two host-visible regions (R80). -/
inductive Region where
  /-- The register region, REG. -/
  | reg
  /-- The buffer region, BUF. -/
  | buf
  deriving DecidableEq, Repr

/-- A host bus access of R13: region, offset, width in bytes, and for a write the value. Illegal
widths and offsets can be written down, because a host may attempt them (R84). -/
inductive HostAccess where
  /-- `HostRead(region, off, n)`. -/
  | read (region : Region) (off n : Nat)
  /-- `HostWrite(region, off, n, v)`. -/
  | write (region : Region) (off n : Nat) (v : Word)
  deriving DecidableEq, Repr

/-- What the environment does next (R150, R311, R340). DESIGN CHOICE, logs 5 and 8. -/
inductive Input where
  /-- The host makes one bus access. -/
  | access (a : HostAccess)
  /-- The WAIT pseudo-instruction: the host reads STATUS until bit 0 of the result is 0 (R127). The
  scheduler gives the block as many turns after each poll that finds BUSY = 1 as the list says, one
  when the list has ended. -/
  | wait (turns : List Nat)
  /-- The host waits until the interrupt output is 1 (R345). -/
  | waitIrq
  /-- The scheduler gives the block its turn for one step (R157). -/
  | blockTurn
  /-- The reset input is asserted (R340). -/
  | reset
  deriving DecidableEq, Repr

/-- The bus's answer to the last host access. DESIGN CHOICE, log 9. -/
inductive BusReply where
  /-- No access has been made since power-up. -/
  | quiet
  /-- A write was taken. -/
  | written
  /-- A read returned `v`, zero-extended to 32 bits (R85). -/
  | data (v : Word)
  /-- The error response of R84. -/
  | busError
  deriving DecidableEq, Repr

/-- Buffer memory: the bytes written since reset, by rising address. An address that is not listed
holds no value the model knows (R103). -/
abbrev Memory := List Host.Cell

/-- The state of the block. -/
structure State where
  /-- The parameters BUF_SIZE, REG_BASE, BUF_BASE (R8). -/
  cfg : Config
  /-- STATUS.BUSY (R37). -/
  statusBusy : Bool
  /-- STATUS.DONE (R38). -/
  statusDone : Bool
  /-- STATUS.LASTOP, as the command it names (R40; log 11). -/
  lastOp : Instr
  /-- ERR bits 5:0 (R41). -/
  err : BitVec 6
  /-- INTEN.DONEIE (R42). -/
  doneIE : Bool
  /-- INTEN.ERRIE (R42). -/
  errIE : Bool
  /-- SRC (R43). -/
  src : Word
  /-- DST (R44). -/
  dst : Word
  /-- LEN (R45). -/
  len : Word
  /-- OUTLEN (R46). -/
  outlen : Word
  /-- PROGRESS (R47). -/
  progress : Word
  /-- ECUR (R48). -/
  ecur : Word
  /-- DCUR (R49). -/
  dcur : Word
  /-- PHASE.EPH (R50). -/
  eph : BitVec 2
  /-- PHASE.DLH (R51). -/
  dlh : BitVec 2
  /-- BLK0, lanes 3..0 (R52). -/
  blk0 : Word
  /-- BLK1, lanes 7..4 (R52). -/
  blk1 : Word
  /-- BLK2, lanes 11..8 (R52). -/
  blk2 : Word
  /-- BLK3, lanes 15..12 (R52). -/
  blk3 : Word
  /-- OP_L, as the command it names (R60; log 11). -/
  opL : Instr
  /-- SRC_L (R60). -/
  srcL : Word
  /-- DST_L (R60). -/
  dstL : Word
  /-- LEN_L (R60). -/
  lenL : Word
  /-- BUFMEM (R56). -/
  mem : Memory
  /-- The model's own: how many free bytes have been drawn (log 3). -/
  draws : Nat
  /-- The model's own: what the environment does next, in order (log 5). -/
  inputs : List Input
  /-- The model's own: the bus's answer to the last host access (log 9). -/
  bus : BusReply
  deriving DecidableEq, Repr

/-- Why the machine stops with a fault. No state that a run reaches raises one (log 13). -/
inductive Fault where
  /-- A micro-step accessed BUFMEM at an address at or beyond BUF_SIZE, which R56 says does not
  exist. Raised by `memRead` and `memWrite`. Safe: R154 rules it out for every accepted command. -/
  | noSuchBufferAddress (a : Nat)
  /-- An RPK.ENC micro-step asked for source cell −1 (ECUR = 0 in phase 2 or 4). Raised by
  `readPrior`. Safe: R238 says the prior byte exists in those phases. -/
  | noPriorSourceCell
  deriving DecidableEq, Repr

/-- Why a command has no meaning. -/
inductive Refusal where
  /-- The command with this mnemonic has no meaning in the model yet. Raised by no arm: every
  command of R123 has its meaning. Safe. -/
  | notModelled (mnemonic : String)
  deriving DecidableEq, Repr

/-- The three outcomes of a step of this machine. -/
abbrev Result := Host.Outcome State Fault Refusal

/-- The machine right after reset (R65, R341), with the parameters of log 1 and, for the model's own
fields, no input pending, no byte drawn and a quiet bus (logs 3, 5, 9). -/
def State.reset : State where
  cfg := Config.reference
  statusBusy := false
  statusDone := false
  lastOp := .nop
  err := 0
  doneIE := false
  errIE := false
  src := 0
  dst := 0
  len := 0
  outlen := 0
  progress := 0
  ecur := 0
  dcur := 0
  eph := 0b00
  dlh := 0b11
  blk0 := 0
  blk1 := 0
  blk2 := 0
  blk3 := 0
  opL := .nop
  srcL := 0
  dstL := 0
  lenL := 0
  mem := []
  draws := 0
  inputs := []
  bus := .quiet

end Sys2Proof.Machine
end

