-- ==== Sys2Proof/Machine/Flags.lean ====
section
/-! DEFINITION. The flags of spec R54: the ERR bits, the words that STATUS, INTEN and PHASE read as,
their write rules, and the interrupt output (R55). -/

namespace Sys2Proof.Machine

/-- The six error causes of R301. -/
inductive ErrCause where
  /-- An illegal command word written while BUSY = 0 (R302). -/
  | illCmd
  /-- A CMD write while BUSY = 1 (R303). -/
  | busyCmd
  /-- A source or destination range beyond BUF_SIZE (R154). -/
  | range
  /-- Source and destination share a byte (R155). -/
  | overlap
  /-- An RPK.DEC micro-step found DLH = 0b00 (R245). -/
  | phase
  /-- A host write of BUF or BLK while BUSY = 1 (R307). -/
  | busyWr
  deriving DecidableEq, Repr

/-- The ERR register with only this cause's bit set (R41, R301). -/
def errBit : ErrCause → BitVec 6
  | .illCmd => 0b000001
  | .busyCmd => 0b000010
  | .range => 0b000100
  | .overlap => 0b001000
  | .phase => 0b010000
  | .busyWr => 0b100000

/-- `x[ERR].CAUSE <- 1`; the other bits keep their values (R41). -/
def recordError (c : ErrCause) (s : State) : State :=
  { s with err := s.err ||| errBit c }

/-- STATUS.ERR reads as 1 iff ERR is not 0 (R39). -/
def State.statusErr (s : State) : Bool := s.err != 0

/-- The STATUS register as read: BUSY, DONE, ERR in bits 0, 1, 2, LASTOP in bits 7:4, the reserved
bits 0 (R37–R40). -/
def statusWord (s : State) : Word :=
  0#24 ++ opcode s.lastOp ++ 0#1 ++ BitVec.ofBool s.statusErr ++ BitVec.ofBool s.statusDone
    ++ BitVec.ofBool s.statusBusy

/-- The ERR register as read; bits 31:6 read 0 (R41). -/
def errWord (s : State) : Word := 0#26 ++ s.err

/-- The INTEN register as read: DONEIE in bit 0, ERRIE in bit 1 (R42). -/
def intenWord (s : State) : Word :=
  0#30 ++ BitVec.ofBool s.errIE ++ BitVec.ofBool s.doneIE

/-- The PHASE register as read: EPH in bits 1:0, DLH in bits 5:4 (R50, R51). -/
def phaseWord (s : State) : Word := 0#26 ++ s.dlh ++ 0#2 ++ s.eph

/-- A host write of STATUS: bit 1 = 1 clears DONE, every other bit is ignored (R34, R38). -/
def writeStatus (v : Word) (s : State) : State :=
  { s with statusDone := s.statusDone && !v.getLsbD 1 }

/-- A host write of ERR clears the bits written as 1 and leaves the others (R41). -/
def writeErr (v : Word) (s : State) : State :=
  { s with err := s.err &&& ~~~(v.extractLsb' 0 6) }

/-- A host write of INTEN; bits 31:2 are ignored (R42). -/
def writeInten (v : Word) (s : State) : State :=
  { s with doneIE := v.getLsbD 0, errIE := v.getLsbD 1 }

/-- The interrupt output, a level and a function of state (R55, R312). -/
def State.irq (s : State) : Bool :=
  (s.statusDone && s.doneIE) || (s.statusErr && s.errIE)

end Sys2Proof.Machine
end

