-- ==== Sys2Proof/Machine/Ops.lean ====
section
/-! DEFINITION. The named operations of the machine: buffer memory (spec R56, R88, R103), byte order
(R85), draws (R97), the errors (R152, R305), acceptance and completion (R156, R159), reset (R340). -/

namespace Sys2Proof.Machine

/-! ### Buffer memory -/

/-- The byte written last at address `a` since reset, none if there is none (R103). This is the one
definition of what an unlisted address reads as: no known value. -/
def Memory.get : Memory → Nat → Option Byte
  | [], _ => none
  | (k, v) :: m, a => if a = k then some v else Memory.get m a

/-- Write byte `b` at address `a`, keeping the addresses strictly rising. -/
def Memory.set : Memory → Nat → Byte → Memory
  | [], a, b => [(a, b)]
  | (k, v) :: m, a, b =>
    if a < k then (a, b) :: (k, v) :: m
    else if a = k then (a, b) :: m
    else (k, v) :: Memory.set m a b

/-- The canonical form: addresses strictly rising. No listed byte can equal what an unlisted address
reads as, since that is no value. -/
abbrev Memory.wf (m : Memory) : Prop := m.Pairwise (fun c d => c.1 < d.1)

/-- `n` free bytes, one draw each (R97; 93 S1). -/
def drawBytes (n : Nat) (s : State) : List Byte × State :=
  ((List.range n).map (fun k => Config.freeByte (s.draws + k)), { s with draws := s.draws + n })

/-- The byte of BUFMEM at `a` as a read returns it: the byte written last, or a draw if nothing has
written it since reset (R103; log 2). -/
def fetchByte (a : Nat) (s : State) : Byte × State :=
  match s.mem.get a with
  | some b => (b, s)
  | none => (Config.freeByte s.draws, { s with draws := s.draws + 1 })

/-- The bytes of BUFMEM at `a`, …, `a + n − 1`, read in rising order. -/
def fetchBytes : Nat → Nat → State → List Byte × State
  | 0, _, s => ([], s)
  | n + 1, a, s =>
    let (b, s₁) := fetchByte a s
    let (bs, s₂) := fetchBytes n (a + 1) s₁
    (b :: bs, s₂)

/-- The memory with the bytes of the list written at `a`, `a + 1`, … -/
def Memory.setBytes : Memory → Nat → List Byte → Memory
  | m, _, [] => m
  | m, a, b :: bs => Memory.setBytes (m.set a b) (a + 1) bs

/-- `MemRead(a, 1)`, the block's read of one byte (R13, R88). -/
def memRead (a : Nat) (s : State) : Except Fault (Byte × State) :=
  if a < s.cfg.bufSize then .ok (fetchByte a s) else .error (.noSuchBufferAddress a)

/-- `MemWrite(a, 1, b)`, the block's write of one byte (R13, R88). -/
def memWrite (a : Nat) (b : Byte) (s : State) : Except Fault State :=
  if a < s.cfg.bufSize then .ok { s with mem := s.mem.set a b } else .error (.noSuchBufferAddress a)

/-- `MemRead` of `n` cells from `a`, in rising order. -/
def readCells : Nat → Nat → State → Except Fault (List Byte × State)
  | 0, _, s => .ok ([], s)
  | n + 1, a, s =>
    match memRead a s with
    | .error f => .error f
    | .ok (b, s₁) =>
      match readCells n (a + 1) s₁ with
      | .error f => .error f
      | .ok (bs, s₂) => .ok (b :: bs, s₂)

/-- `MemWrite` of the cells of the list at `a`, `a + 1`, …, in rising order. -/
def writeCells : List Byte → Nat → State → Except Fault State
  | [], _, s => .ok s
  | b :: bs, a, s =>
    match memWrite a b s with
    | .error f => .error f
    | .ok s₁ => writeCells bs (a + 1) s₁

/-! ### Byte order -/

/-- The little-endian value of the bytes (R85). -/
def wordOfBytes : List Byte → Word
  | [] => 0
  | b :: bs => (wordOfBytes bs <<< 8) ||| b.setWidth 32

/-- The `n` bytes of `v` that an `n`-byte write stores, lowest first (R85). -/
def bytesOfWord (n : Nat) (v : Word) : List Byte :=
  (List.range n).map (fun k => (v >>> (8 * k)).setWidth 8)

/-! ### Errors: the block's only exceptions (R300) -/

/-- `raise Reject(CAUSE)`: the ERR bit, and nothing else (R152). -/
def reject (c : ErrCause) (s : State) : State := recordError c s

/-- `raise Abort(CAUSE)`: the ERR bit, BUSY ← 0, DONE ← 1, and nothing else (R305). -/
def abort (c : ErrCause) (s : State) : State :=
  { recordError c s with statusBusy := false, statusDone := true }

/-! ### Acceptance, completion, reset -/

/-- `Accept(d, out)` (R156): the latches, OUTLEN, PROGRESS and STATUS, and the fresh cursor of a
repacker command (R231, R241). -/
def accept (d : Instr) (out : Nat) (s : State) : State :=
  { s with
    opL := d
    srcL := s.src
    dstL := s.dst
    lenL := s.len
    outlen := BitVec.ofNat 32 out
    progress := 0
    lastOp := d
    statusDone := false
    statusBusy := true
    ecur := if d = .rpkEnc then 0 else s.ecur
    eph := if d = .rpkEnc then 0b00 else s.eph
    dcur := if d = .rpkDec then 0 else s.dcur
    dlh := if d = .rpkDec then 0b11 else s.dlh }

/-- The completion step: BUSY ← 0, DONE ← 1 (R159). -/
def complete (s : State) : State :=
  { s with statusBusy := false, statusDone := true }

/-- The reset input (R340, R342): every register and hidden register takes its value of R65 and no
byte of BUFMEM is known any more. What is not the block's (the parameters, the host's side, the
count of draws) stays. Log 18. -/
def resetBlock (s : State) : State :=
  { State.reset with cfg := s.cfg, draws := s.draws, inputs := s.inputs, bus := s.bus }

end Sys2Proof.Machine
end

