-- ==== Sys2Proof/Machine/Operands.lean ====
section
/-! DEFINITION. The operands of the commands (spec R122): the latched source, destination and length
(R60), the lanes of the block register (R52), the checks made on them at the CMD write (R151,
R153–R155), and the frame every command's steps share (R157). -/

namespace Sys2Proof.Machine

/-! ### Lengths and ranges -/

/-- `OutLen(d, n)` (R153). -/
def outLen (d : Instr) (n : Nat) : Nat :=
  match d with
  | .nop => 0
  | .xlEnc => n
  | .xlDec => n
  | .xlEncB => 16
  | .xlDecB => 16
  | .rpkEnc => (4 * n + 2) / 3
  | .rpkDec => (3 * n) / 4

/-- The memory commands, the only ones whose ranges are checked (R151, R304). -/
def usesBuffer : Instr → Bool
  | .nop => false
  | .xlEnc => true
  | .xlDec => true
  | .xlEncB => false
  | .xlDecB => false
  | .rpkEnc => true
  | .rpkDec => true

/-- `RangeOK(src, n, dst, out)`, on unbounded integers (R154). -/
def rangeOK (bufSize src n dst out : Nat) : Bool :=
  decide (src + n ≤ bufSize) && decide (dst + out ≤ bufSize)

/-- `Overlap(src, n, dst, out)` (R155). -/
def overlap (src n dst out : Nat) : Bool :=
  decide (0 < n) && decide (0 < out) && decide (src < dst + out) && decide (dst < src + n)

/-- The CMD write of the decoded command `d` while BUSY = 0: the checks of R151 in their order (the
first that fails decides, R310), then acceptance. -/
def present (d : Instr) (s : State) : State :=
  let n := s.len.toNat
  let out := outLen d n
  if usesBuffer d && !rangeOK s.cfg.bufSize s.src.toNat n s.dst.toNat out then reject .range s
  else if usesBuffer d && overlap s.src.toNat n s.dst.toNat out then reject .overlap s
  else accept d out s

/-- Every step of command `d` (R151, R157): presented while BUSY = 0; while BUSY = 1 its micro-step
if PROGRESS < OUTLEN, otherwise the completion step. Log 12. -/
def lifecycle (d : Instr) (micro : State → Result) (s : State) : Result :=
  if s.statusBusy then
    if s.progress.toNat < s.outlen.toNat then micro s else .next (complete s)
  else .next (present d s)

/-! ### Source and destination cells -/

/-- The BUFMEM address of source cell `k` of the running operation (R60, R88). -/
def srcCell (s : State) (k : Nat) : Nat := s.srcL.toNat + k

/-- The BUFMEM address of destination cell `k` of the running operation (R60, R88). -/
def dstCell (s : State) (k : Nat) : Nat := s.dstL.toNat + k

/-- The repacker's `rd(k)` (R234): source cell `k`, and 0 with no access at or beyond LEN_L. -/
def readSource (k : Nat) (s : State) : Except Fault (Byte × State) :=
  if k < s.lenL.toNat then memRead (srcCell s k) s else .ok (0, s)

/-- `rd(i − 1)` (R233); a cursor with no prior byte is ruled out by R238 and faults here (log 13). -/
def readPrior (i : Nat) (s : State) : Except Fault (Byte × State) :=
  match i with
  | 0 => .error .noPriorSourceCell
  | k + 1 => readSource k s

/-! ### The block register -/

/-- Word `i` of the block register, BLKi (R52). -/
def blkWord (s : State) (i : Nat) : Word :=
  match i with
  | 0 => s.blk0
  | 1 => s.blk1
  | 2 => s.blk2
  | _ => s.blk3

/-- Lane `l` of the block register: bits `8·(l mod 4)+7` to `8·(l mod 4)` of BLK(l div 4) (R52). -/
def State.lane (s : State) (l : Fin 16) : Byte :=
  (blkWord s (l.val / 4)).extractLsb' (8 * (l.val % 4)) 8

/-- A lane function applied to the four lanes of one word (R52, R180). -/
def mapWordLanes (f : Byte → Byte) (w : Word) : Word :=
  f (w.extractLsb' 24 8) ++ f (w.extractLsb' 16 8) ++ f (w.extractLsb' 8 8) ++ f (w.extractLsb' 0 8)

/-- A lane function applied to all 16 lanes together (R189). -/
def mapLanes (f : Byte → Byte) (s : State) : State :=
  { s with
    blk0 := mapWordLanes f s.blk0
    blk1 := mapWordLanes f s.blk1
    blk2 := mapWordLanes f s.blk2
    blk3 := mapWordLanes f s.blk3 }

end Sys2Proof.Machine
end

