-- ==== Sys2Proof/Machine/Nop.lean ====
section
/-! DEFINITION. NOP (spec R161). -/

namespace Sys2Proof.Machine

/-- NOP has no micro-step: whatever the counters hold, its next block step is the completion step
(R161; log 15). -/
def microNop (s : State) : Result := .next (complete s)

/-- NOP (R161). -/
def execNop (s : State) : Result := lifecycle .nop microNop s

end Sys2Proof.Machine
end

