-- ==== Sys2Proof/Machine/Repacker.lean ====
section
/-! DEFINITION. The Bit Repacker (spec R230–R248): RPK.ENC (8 → 6) and RPK.DEC (6 → 8) with their
cursors. -/

namespace Sys2Proof.Machine

/-! ### Encode direction -/

/-- `bits_from_last`, the phase value an EPH code stands for (R50, R232). -/
def bitsFromLast (eph : BitVec 2) : Int :=
  match eph.toNat with
  | 0 => 0
  | 1 => 2
  | 2 => 4
  | _ => -2

/-- The EPH code of a phase value (R50, R232); R236 says only these four values occur. -/
def ephCode (bfl : Int) : BitVec 2 :=
  if bfl = 0 then 0b00 else if bfl = 2 then 0b01 else if bfl = 4 then 0b10 else 0b11

/-- The encode cursor's cumulative `bit_index` (R62). -/
def State.bitIndex (s : State) : Int := 8 * (s.ecur.toNat : Int) - bitsFromLast s.eph

/-- The Symbol of a phase, from the prior byte and the current byte (R233). -/
def symbolOf (eph : BitVec 2) (prior current : Byte) : Byte :=
  match eph.toNat with
  | 0 => current >>> 2
  | 1 => ((prior <<< 4) &&& 0x30#8) ||| (current >>> 4)
  | 2 => ((prior <<< 2) &&& 0x3C#8) ||| (current >>> 6)
  | _ => current &&& 0x3F#8

/-- Phases 2 and 4 take bits of the prior byte; phases 0 and −2 do not read it (R233, R239). -/
def usesPrior (eph : BitVec 2) : Bool := eph == 0b01 || eph == 0b10

/-- The prior byte `rd(i − 1)` in the phases that use it, else no access. -/
def readPriorIfUsed (s : State) : Except Fault (Byte × State) :=
  if usesPrior s.eph then readPrior s.ecur.toNat s else .ok (0, s)

/-- The byte index after a Symbol: it is held iff the new bit_index modulo 8 is 2 (R235). -/
def nextByteIndex (i : Nat) (eph : BitVec 2) : Nat :=
  if (8 * (i : Int) - bitsFromLast eph + 6) % 8 = 2 then i else i + 1

/-- The phase code after a Symbol, of `8·byte_index − bit_index` with the new values (R235). -/
def nextEph (i : Nat) (eph : BitVec 2) : BitVec 2 :=
  ephCode (8 * (nextByteIndex i eph : Int) - (8 * (i : Int) - bitsFromLast eph + 6))

/-- One micro-step of RPK.ENC: emit one Symbol and advance the cursor (R239). -/
def emitSymbol (s : State) : Result :=
  match readPriorIfUsed s with
  | .error e => .fault e
  | .ok (prior, s₁) =>
    match readSource s.ecur.toNat s₁ with
    | .error e => .fault e
    | .ok (current, s₂) =>
      match memWrite (dstCell s s.progress.toNat) (symbolOf s.eph prior current) s₂ with
      | .error e => .fault e
      | .ok s₃ =>
        .next { s₃ with
          progress := s.progress + 1
          ecur := BitVec.ofNat 32 (nextByteIndex s.ecur.toNat s.eph)
          eph := nextEph s.ecur.toNat s.eph }

/-- RPK.ENC (R239). -/
def execRpkEnc (s : State) : Result := lifecycle .rpkEnc emitSymbol s

/-! ### Decode direction -/

/-- The output byte from the previous Symbol cell, the current one and L = left_from_last (R242); the
cells are used whole, with no masking (R248). -/
def byteOf (l : Nat) (previous current : Byte) : Byte :=
  (previous <<< (8 - l)) ||| (current >>> (l - 2))

/-- One micro-step of RPK.DEC: emit one byte and advance the cursor, or abort with PHASE on the
illegal phase code (R245, R246). -/
def emitByte (s : State) : Result :=
  if s.dlh = 0b00 then .next (abort .phase s)
  else
    let l := 2 * s.dlh.toNat
    let p := s.dcur.toNat
    match memRead (srcCell s p) s with
    | .error e => .fault e
    | .ok (a, s₁) =>
      match memRead (srcCell s (p + 1)) s₁ with
      | .error e => .fault e
      | .ok (b, s₂) =>
        match memWrite (dstCell s s.progress.toNat) (byteOf l a b) s₂ with
        | .error e => .fault e
        | .ok s₃ =>
          .next { s₃ with
            progress := s.progress + 1
            dcur := BitVec.ofNat 32 (if l - 2 = 0 then p + 2 else p + 1)
            dlh := if l - 2 = 0 then 0b11 else BitVec.ofNat 2 ((l - 2) / 2) }

/-- RPK.DEC (R246). -/
def execRpkDec (s : State) : Result := lifecycle .rpkDec emitByte s

end Sys2Proof.Machine
end

