-- ==== Sys2Proof/Machine/Translator.lean ====
section
/-! DEFINITION. The Block Translator (spec R180–R194): the range table, the lane functions TE and TD,
and the four commands XL.ENC, XL.DEC, XL.ENCB, XL.DECB. -/

namespace Sys2Proof.Machine

/-! ### The range table and the lane functions -/

/-- A row of R181: Symbol range `[slo, shi)` maps onto character range `[clo, chi)`. -/
structure LaneRange where
  /-- Lowest Symbol. -/
  slo : Nat
  /-- One past the highest Symbol. -/
  shi : Nat
  /-- Lowest character code. -/
  clo : Nat
  /-- One past the highest character code. -/
  chi : Nat
  deriving DecidableEq, Repr

/-- The one table of R181, from which both directions are made. -/
def rangeTable : List LaneRange :=
  [⟨0, 26, 65, 91⟩, ⟨26, 52, 97, 123⟩, ⟨52, 62, 48, 58⟩, ⟨62, 63, 43, 44⟩, ⟨63, 64, 47, 48⟩]

/-- `mask_r(v)`: 0xFF iff `lo ≤ v < hi` over integers (R12, R182). -/
def laneMask (lo hi : Nat) (v : Byte) : Byte :=
  if lo ≤ v.toNat ∧ v.toNat < hi then 0xFF else 0x00

/-- The encode offset `oE = (clo − slo) mod 256` (R181). -/
def encOffset (r : LaneRange) : Byte := BitVec.ofInt 8 ((r.clo : Int) - r.slo)

/-- The decode offset `oD = (slo − clo) mod 256` (R181). -/
def decOffset (r : LaneRange) : Byte := BitVec.ofInt 8 ((r.slo : Int) - r.clo)

/-- TE, the lane function of the encode direction (R183). -/
def te (v : Byte) : Byte :=
  v + rangeTable.foldr (fun r acc => (encOffset r &&& laneMask r.slo r.shi v) ||| acc) 0

/-- TD, the lane function of the decode direction (R183). -/
def td (v : Byte) : Byte :=
  v + rangeTable.foldr (fun r acc => (decOffset r &&& laneMask r.clo r.chi v) ||| acc) 0

/-! ### Micro-steps -/

/-- One micro-step of a memory translation by lane function `f` (R158, R190, R194): up to 16 source
cells are read, the unused lanes are 0 and not read, all 16 lanes are translated together, and only
the valid lanes are written. -/
def translateBlock (f : Byte → Byte) (s : State) : Result :=
  let base := s.progress.toNat
  let cnt := min 16 (s.outlen.toNat - base)
  match readCells cnt (srcCell s base) s with
  | .error e => .fault e
  | .ok (cells, s₁) =>
    let lanes := (cells ++ List.replicate (16 - cnt) 0x00).map f
    match writeCells (lanes.take cnt) (dstCell s₁ base) s₁ with
    | .error e => .fault e
    | .ok s₂ => .next { s₂ with progress := BitVec.ofNat 32 (base + cnt) }

/-- The one micro-step of a block-register translation by lane function `f` (R192). -/
def translateLanes (f : Byte → Byte) (s : State) : Result :=
  .next { mapLanes f s with progress := 16 }

/-! ### The commands -/

/-- XL.ENC (R190). -/
def execXlEnc (s : State) : Result := lifecycle .xlEnc (translateBlock te) s

/-- XL.DEC (R191). -/
def execXlDec (s : State) : Result := lifecycle .xlDec (translateBlock td) s

/-- XL.ENCB (R192). -/
def execXlEncB (s : State) : Result := lifecycle .xlEncB (translateLanes te) s

/-- XL.DECB (R193). -/
def execXlDecB (s : State) : Result := lifecycle .xlDecB (translateLanes td) s

end Sys2Proof.Machine
end

