-- ==== Sys2Proof/Machine/Dispatch.lean ====
section
/-! DEFINITION. One arm per command: every step of that command (spec R123; log 12). -/

namespace Sys2Proof.Machine

def exec (i : Instr) (s : State) : Host.Outcome State Fault Refusal :=
  match i with
  | .nop => Sys2Proof.Machine.execNop s
  | .xlEnc => Sys2Proof.Machine.execXlEnc s
  | .xlDec => Sys2Proof.Machine.execXlDec s
  | .xlEncB => Sys2Proof.Machine.execXlEncB s
  | .xlDecB => Sys2Proof.Machine.execXlDecB s
  | .rpkEnc => Sys2Proof.Machine.execRpkEnc s
  | .rpkDec => Sys2Proof.Machine.execRpkDec s

end Sys2Proof.Machine
end

