-- ==== Sys2Proof/Machine/Bus.lean ====
section
/-! DEFINITION. The host's bus accesses (spec R81–R90, R95–R98): the register region (R32–R53), the
buffer region, the CMD write (R151), and where the two regions lie in the host's address space
(R80, R91). -/

namespace Sys2Proof.Machine

/-! ### The register map -/

/-- ID, the identification constant (R35). -/
def idValue : Word := 0x0B640001

/-- What a register read returns (R32): CMD and the reserved offsets read 0 (R33, R36). -/
def readRegister (off : Nat) (s : State) : Word :=
  match off with
  | 0x000 => idValue
  | 0x004 => 0
  | 0x008 => statusWord s
  | 0x00C => errWord s
  | 0x010 => intenWord s
  | 0x014 => s.src
  | 0x018 => s.dst
  | 0x01C => s.len
  | 0x020 => s.outlen
  | 0x024 => s.progress
  | 0x028 => s.ecur
  | 0x02C => s.dcur
  | 0x030 => phaseWord s
  | 0x040 => s.blk0
  | 0x044 => s.blk1
  | 0x048 => s.blk2
  | 0x04C => s.blk3
  | _ => 0

/-- The offsets of BLK0 to BLK3 (R32). -/
def isBlkOffset (off : Nat) : Bool :=
  off == 0x040 || off == 0x044 || off == 0x048 || off == 0x04C

/-- A write to a register other than CMD (R32): a read-only register, a read-only field and a reserved
offset ignore it (R33, R34), and BLKi takes four lanes at once (R53). -/
def writeRegister (off : Nat) (v : Word) (s : State) : State :=
  match off with
  | 0x008 => writeStatus v s
  | 0x00C => writeErr v s
  | 0x010 => writeInten v s
  | 0x014 => { s with src := v }
  | 0x018 => { s with dst := v }
  | 0x01C => { s with len := v }
  | 0x040 => { s with blk0 := v }
  | 0x044 => { s with blk1 := v }
  | 0x048 => { s with blk2 := v }
  | 0x04C => { s with blk3 := v }
  | _ => s

/-- The offset of CMD (R32, R36). -/
def cmdOffset : Nat := 0x004

/-- The offset of STATUS (R32, R37). -/
def statusOffset : Nat := 0x008

/-- The CMD write (R151): BUSYCMD while an operation runs, ILLCMD for an illegal word, otherwise the
command is presented. -/
def writeCommand (w : Word) (s : State) : Result :=
  if s.statusBusy then .next (reject .busyCmd s)
  else
    match decode w with
    | .error _ => .next (reject .illCmd s)
    | .ok i => exec i s

/-! ### Legality -/

/-- A legal access of the register region (R81). -/
def regAccessLegal (off n : Nat) : Bool :=
  n == 4 && off % 4 == 0 && decide (off < 0x100)

/-- A legal access of the buffer region (R82). -/
def bufAccessLegal (c : Config) (off n : Nat) : Bool :=
  (n == 1 || n == 2 || n == 4) && off % n == 0 && decide (off + n ≤ c.bufSize)

/-! ### The accesses -/

/-- The reply on the bus to an access that completed. -/
def reply (r : BusReply) (s : State) : State := { s with bus := r }

/-- A read that returns the bytes `r.1`, little-endian (R85), leaving the state `r.2`. -/
def replyBytes (r : List Byte × State) : State := reply (.data (wordOfBytes r.1)) r.2

/-- One host bus access, an indivisible host step. Legality comes first: an illegal access is a
BusError and changes nothing (R84, R308; log 10). While BUSY = 1 a read of BUF or BLK returns draws
(R97) and a write of them is discarded with BUSYWR (R98, R307). -/
def hostAccess (a : HostAccess) (s : State) : Result :=
  match a with
  | .read .reg off n =>
    if !regAccessLegal off n then .next (reply .busError s)
    else if s.statusBusy && isBlkOffset off then .next (replyBytes (drawBytes 4 s))
    else .next (reply (.data (readRegister off s)) s)
  | .write .reg off n v =>
    if !regAccessLegal off n then .next (reply .busError s)
    else if off = cmdOffset then writeCommand v (reply .written s)
    else if s.statusBusy && isBlkOffset off then .next (recordError .busyWr (reply .written s))
    else .next (writeRegister off v (reply .written s))
  | .read .buf off n =>
    if !bufAccessLegal s.cfg off n then .next (reply .busError s)
    else if s.statusBusy then .next (replyBytes (drawBytes n s))
    else .next (replyBytes (fetchBytes n off s))
  | .write .buf off n v =>
    if !bufAccessLegal s.cfg off n then .next (reply .busError s)
    else if s.statusBusy then .next (recordError .busyWr (reply .written s))
    else .next (reply .written { s with mem := s.mem.setBytes off (bytesOfWord n v) })

/-! ### The host's address space -/

/-- The host address of an offset of a region (R80, R91). -/
def hostAddress (c : Config) : Region → Nat → Nat
  | .reg, off => c.regBase + off
  | .buf, off => c.bufBase + off

/-- The region and offset a host address reaches: REG is 256 bytes at REG_BASE, BUF is BUF_SIZE bytes
at BUF_BASE (R80). An address in neither is not the block's. Log 21 for windows that overlap. -/
def regionOf (c : Config) (a : Nat) : Option (Region × Nat) :=
  if c.regBase ≤ a ∧ a < c.regBase + 0x100 then some (.reg, a - c.regBase)
  else if c.bufBase ≤ a ∧ a < c.bufBase + c.bufSize then some (.buf, a - c.bufBase)
  else none

end Sys2Proof.Machine
end

