-- ==== Sys2Proof/Machine/Schedule.lean ====
section
/-! DEFINITION. Which agent moves next, and its step (spec R150, R157, R311, R340). -/

namespace Sys2Proof.Machine

/-- The block's step (R157): while BUSY = 1 a step of the latched command, while BUSY = 0 none (the
state stays, log 7). -/
def blockStep (s : State) : Result :=
  if s.statusBusy then exec s.opL s else .next s

/-- What is left of the host's program after a poll of WAIT that returned `v` (R127): while bit 0
(BUSY) is 1 the loop goes on, after the block's turns that the scheduler gives it here; otherwise WAIT
has ended. -/
def afterPoll (turns : List Nat) (rest : List Input) (v : Word) : List Input :=
  if v.getLsbD 0 then List.replicate (turns.headD 1) .blockTurn ++ .wait turns.tail :: rest else rest

/-- One turn of the loop of WAIT (R127): the host step `RD STATUS`, whose result decides whether the
loop goes on. Log 8. -/
def hostWait (turns : List Nat) (rest : List Input) (s : State) : Result :=
  hostAccess (.read .reg statusOffset 4)
    { s with inputs := afterPoll turns rest (readRegister statusOffset s) }

/-- Waiting for IRQ = 1 (R345): the block takes its steps until the output is 1. If it never becomes
1 the host waits on. Log 8. -/
def hostWaitIrq (rest : List Input) (s : State) : Result :=
  if s.irq then .next { s with inputs := rest } else blockStep s

/-- The next step of the whole: the environment's next input, or the block if none is left. -/
def nextStep (s : State) : Result :=
  match s.inputs with
  | [] => blockStep s
  | .access a :: rest => hostAccess a { s with inputs := rest }
  | .wait turns :: rest => hostWait turns rest s
  | .waitIrq :: rest => hostWaitIrq rest s
  | .blockTurn :: rest => blockStep { s with inputs := rest }
  | .reset :: rest => .next (resetBlock { s with inputs := rest })

/-- The host write that presents command word `w` (R36, R120). -/
def commandInput (w : Word) : Input := .access (.write .reg cmdOffset 4 w)

/-- `s` with the idle block's next step being the CMD write of `w` (log 6). -/
def withCommand (w : Word) (s : State) : State :=
  { s with statusBusy := false, inputs := commandInput w :: s.inputs }

end Sys2Proof.Machine
end

