-- ==== Sys2Proof/Machine/Step.lean ====
section
/-! DEFINITION. One step of the machine, and how the host places a command (log 6). -/

namespace Sys2Proof.Machine

/-- One step: the next step of the agent whose turn it is (spec R150). -/
def step (s : State) : Host.Outcome State Fault Refusal := nextStep s

/-- `s` with the command word whose lowest `nbits` bits are those of `w` presented next. -/
def State.withFetchWord (s : State) (nbits w : Nat) : State :=
  withCommand (BitVec.ofNat 32 (w % 2 ^ nbits)) s

end Sys2Proof.Machine
end

