-- ==== Sys2Proof/Machine/HostProc.lean ====
section
/-! DEFINITION. The host's side of the spec: the notation of R126 and R127 as inputs, and the host
procedures ENCODE and DECODE (R280–R283) as lists of inputs. -/

namespace Sys2Proof.Machine

/-! ### Host notation (R126, R127) -/

/-- `WR <reg>, v` at the register's offset. -/
def hostWR (off : Nat) (v : Word) : Input := .access (.write .reg off 4 v)

/-- `RD <reg>`. -/
def hostRD (off : Nat) : Input := .access (.read .reg off 4)

/-- `SB a, v`. -/
def hostSB (a : Nat) (v : Byte) : Input := .access (.write .buf a 1 (v.setWidth 32))

/-- `SH a, v`. -/
def hostSH (a : Nat) (v : BitVec 16) : Input := .access (.write .buf a 2 (v.setWidth 32))

/-- `SW a, v`. -/
def hostSW (a : Nat) (v : Word) : Input := .access (.write .buf a 4 v)

/-- `LB a`. -/
def hostLB (a : Nat) : Input := .access (.read .buf a 1)

/-- `LH a`. -/
def hostLH (a : Nat) : Input := .access (.read .buf a 2)

/-- `LW a`. -/
def hostLW (a : Nat) : Input := .access (.read .buf a 4)

/-- `STR a, "<text>"`: one SB per character, in order. -/
def hostSTR : Nat → List Byte → List Input
  | _, [] => []
  | a, b :: bs => hostSB a b :: hostSTR (a + 1) bs

/-- A command's pseudo-instruction: `WR CMD, <its command word>`. -/
def hostCommand (i : Instr) : Input := commandInput (encode i)

/-- `CLR`: clear DONE and every error bit. -/
def hostCLR : List Input := [hostWR 0x008 0x2, hostWR 0x00C 0x3F]

/-- `WAIT`, with the block's turns after each poll that finds BUSY = 1 (log 8). -/
def hostWAIT (turns : List Nat) : Input := .wait turns

/-- `RUN <op>, <src>, <dst>, <len>` (R127), with the block's turns that the scheduler gives inside it
(R150): the head of the list, 0 if there is none, between the CMD write and WAIT's first poll, the rest
between the polls of WAIT. DESIGN CHOICE, log 8: this form of the schedule, and that RUN names no turn
before the CMD write, where the block is idle and a turn would change nothing. -/
def hostRUN (i : Instr) (src dst len : Nat) (turns : List Nat) : List Input :=
  [hostWR 0x014 (BitVec.ofNat 32 src), hostWR 0x018 (BitVec.ofNat 32 dst),
      hostWR 0x01C (BitVec.ofNat 32 len), hostCommand i]
    ++ List.replicate (turns.headD 0) .blockTurn ++ [hostWAIT turns.tail]

/-! ### Padding -/

/-- The code of `=` (R14). -/
def padChar : Byte := 0x3D

/-- `PadCount(n) = [0, 2, 1][n mod 3]` (R281). -/
def padCount (n : Nat) : Nat :=
  match n % 3 with
  | 0 => 0
  | 1 => 2
  | _ => 1

/-- How many `=` stand at the head of a list, at most `cap`. -/
def leadingPads : Nat → List Byte → Nat
  | 0, _ => 0
  | _ + 1, [] => 0
  | cap + 1, c :: cs => if c = padChar then leadingPads cap cs + 1 else 0

/-- `StripCount(T)`: the `=` at the end of T, at most 2 (R283). -/
def stripCount (text : List Byte) : Nat := leadingPads 2 text.reverse

/-! ### The procedures -/

/-- ENCODE(B) (R280), steps 1 to 5, with the buffers at IN, SYM and OUT; ERR is read after each RUN.
The two lists are the block's turns inside the two RUNs. Logs 8 and 20. -/
def encodeProcedure (inA symA outA : Nat) (bs : List Byte) (turns₁ turns₂ : List Nat) : List Input :=
  let n := bs.length
  let m := outLen .rpkEnc n
  hostSTR inA bs
    ++ hostRUN .rpkEnc inA symA n turns₁ ++ [hostRD 0x00C]
    ++ hostRUN .xlEnc symA outA m turns₂ ++ [hostRD 0x00C]
    ++ hostSTR (outA + m) (List.replicate (padCount n) padChar)

/-- The length of ENCODE's result (R280, step 6). -/
def encodeResultLength (n : Nat) : Nat := outLen .rpkEnc n + padCount n

/-- DECODE(T) (R282), steps 1 to 3, with the buffers at IN, SYM and OUT; ERR is read after each RUN.
The two lists are the block's turns inside the two RUNs. Logs 8 and 20. -/
def decodeProcedure (inA symA outA : Nat) (text : List Byte) (turns₁ turns₂ : List Nat) :
    List Input :=
  let m := text.length
  hostSTR inA text
    ++ hostRUN .xlDec inA symA m turns₁ ++ [hostRD 0x00C]
    ++ hostRUN .rpkDec symA outA m turns₂ ++ [hostRD 0x00C]

/-- The length `r` of DECODE's result (R282, steps 4 and 5); subtraction stops at 0. -/
def decodeResultLength (text : List Byte) : Nat :=
  outLen .rpkDec text.length - stripCount text

/-- Step 6 of both procedures: BUFMEM bytes `a` to `a + n − 1`, none for a byte nothing has written. -/
def bufferBytes (m : Memory) (a n : Nat) : List (Option Byte) :=
  (List.range n).map (fun k => m.get (a + k))

end Sys2Proof.Machine
end

