-- ==== Sys2Proof/Safety.lean ====
section
/-! DEFINITION. The terms the claims use: runs of several steps, what must hold in every state a run
reaches, and the reference functions on byte lists (bit streams, alphabet, Base64 text) that the
commands are claimed to compute. -/

namespace Sys2Proof.Machine

/-! ### Runs -/

/-- `k` steps; the first fault or refusal ends them. -/
def steps : Nat → State → Result
  | 0, s => .next s
  | k + 1, s =>
    match step s with
    | .next t => steps k t
    | .fault f => .fault f
    | .refused r => .refused r

/-- The number of micro-steps an operation takes (R160). -/
def microSteps (d : Instr) (out : Nat) : Nat :=
  match d with
  | .nop => 0
  | .xlEnc => (out + 15) / 16
  | .xlDec => (out + 15) / 16
  | .xlEncB => 1
  | .xlDecB => 1
  | .rpkEnc => out
  | .rpkDec => out

/-! ### Ranges and cells -/

/-- Two ranges of buffer memory share no byte (R155). -/
def RangesDisjoint (a n b m : Nat) : Prop := n = 0 ∨ m = 0 ∨ a + n ≤ b ∨ b + m ≤ a

/-- Bytes `a` to `a + bs.length − 1` of the memory were last written with `bs`. -/
def Holds (m : Memory) (a : Nat) (bs : List Byte) : Prop :=
  ∀ k (h : k < bs.length), m.get (a + k) = some bs[k]

/-- The two memories agree outside `[a, a + n)`. -/
def SameOutside (m m' : Memory) (a n : Nat) : Prop :=
  ∀ x, x < a ∨ a + n ≤ x → m'.get x = m.get x

/-- `rd(k)` of R234 is `b`: source cell `k` holds `b`, or `k` is at or beyond LEN_L and `b` is 0. -/
def SourceIs (s : State) (k : Nat) (b : Byte) : Prop :=
  (k < s.lenL.toNat ∧ s.mem.get (s.srcL.toNat + k) = some b) ∨ (s.lenL.toNat ≤ k ∧ b = 0)

/-! ### The invariant -/

/-- What holds while an operation runs: OUTLEN is that of the latched command and length (R153,
R156), the ranges fit and are disjoint (R154, R155), and the counters stand where the micro-steps
taken so far have brought them (R190, R236–R238, R243). -/
structure OperationInv (s : State) : Prop where
  /-- OUTLEN (R156). -/
  outlen_eq : s.outlen.toNat = outLen s.opL s.lenL.toNat
  /-- The source range of a memory command is inside BUFMEM (R154). -/
  src_fits : usesBuffer s.opL = true → s.srcL.toNat + s.lenL.toNat ≤ s.cfg.bufSize
  /-- The destination range of a memory command is inside BUFMEM (R154). -/
  dst_fits : usesBuffer s.opL = true → s.dstL.toNat + s.outlen.toNat ≤ s.cfg.bufSize
  /-- Source and destination share no byte (R155). -/
  disjoint : usesBuffer s.opL = true →
    RangesDisjoint s.srcL.toNat s.lenL.toNat s.dstL.toNat s.outlen.toNat
  /-- A translation stands at a block boundary or at its end (R190). -/
  block_aligned : s.opL = .xlEnc ∨ s.opL = .xlDec →
    s.progress.toNat % 16 = 0 ∨ s.progress = s.outlen
  /-- The encode cursor after `PROGRESS` Symbols (R236, R238). -/
  enc_cursor : s.opL = .rpkEnc →
    s.ecur.toNat = (6 * s.progress.toNat + 5) / 8 ∧ s.eph.toNat = s.progress.toNat % 4
  /-- The decode cursor after `PROGRESS` bytes (R243). -/
  dec_cursor : s.opL = .rpkDec →
    s.dcur.toNat = s.progress.toNat + s.progress.toNat / 3 ∧
      s.dlh.toNat = 3 - s.progress.toNat % 3

/-- What holds in every state a run reaches. -/
structure State.Inv (s : State) : Prop where
  /-- The parameters meet R8. -/
  cfg_wf : s.cfg.wf = true
  /-- BUFMEM is in canonical form. -/
  mem_wf : s.mem.wf
  /-- BUFMEM holds no byte at or beyond BUF_SIZE (R56). -/
  mem_inside : ∀ c ∈ s.mem, c.1 < s.cfg.bufSize
  /-- LASTOP and OP_L name the same command (R156). -/
  last_op : s.lastOp = s.opL
  /-- DLH never holds its illegal code (R51). -/
  dlh_legal : s.dlh ≠ 0b00
  /-- ERR.PHASE is never set (R245). -/
  no_phase_error : s.err.getLsbD 4 = false
  /-- `PROGRESS ≤ OUTLEN` (R47). -/
  progress_le : s.progress.toNat ≤ s.outlen.toNat
  /-- An idle block has no destination cell outstanding (R159). -/
  idle_finished : s.statusBusy = false → s.progress = s.outlen
  /-- BUSY and DONE are never both 1 (R156, R159). -/
  busy_not_done : s.statusBusy = true → s.statusDone = false
  /-- A running operation is as `OperationInv` says. -/
  operation : s.statusBusy = true → OperationInv s

/-! ### Reference functions -/

/-- Bit `j` of the bit stream of cells that carry `width` bits each, most significant first (R10). -/
def streamBit (width : Nat) (cells : List Byte) (j : Nat) : Bool :=
  (cells.getD (j / width) 0).getLsbD (width - 1 - j % width)

/-- The number written by bits `j` to `j + n − 1` of the stream, most significant first. -/
def streamField (width : Nat) (cells : List Byte) (j : Nat) : Nat → Nat
  | 0 => 0
  | n + 1 => 2 * streamField width cells j n + (streamBit width cells (j + n)).toNat

/-- The Symbols of a byte buffer: Symbol `k` is bits `6k` to `6k + 5` of its stream, with bits beyond
the buffer 0 (R230). -/
def symbolsOf (bs : List Byte) : List Byte :=
  (List.range (outLen .rpkEnc bs.length)).map (fun k => BitVec.ofNat 8 (streamField 8 bs (6 * k) 6))

/-- The bytes packed in Symbol cells: byte `t` is bits `8t` to `8t + 7` of the stream of the cells' low
6 bits (R246). -/
def bytesOfSymbols (cells : List Byte) : List Byte :=
  (List.range (outLen .rpkDec cells.length)).map
    (fun t => BitVec.ofNat 8 (streamField 6 cells (8 * t) 8))

/-- The bytes RPK.DEC makes of any cells, Symbols or not: the formula of R242 at the cursor of R243
(R248). -/
def repackedBytes (cells : List Byte) : List Byte :=
  (List.range (outLen .rpkDec cells.length)).map
    (fun t =>
      let p := t + t / 3
      let l := 6 - 2 * (t % 3)
      (cells.getD p 0 <<< (8 - l)) ||| (cells.getD (p + 1) 0 >>> (l - 2)))

/-- The alphabet `A–Z, a–z, 0–9, +, /` in its order (R14, R15). -/
def alphabet : List Byte :=
  (List.range 26).map (fun k => BitVec.ofNat 8 (65 + k))
    ++ (List.range 26).map (fun k => BitVec.ofNat 8 (97 + k))
    ++ (List.range 10).map (fun k => BitVec.ofNat 8 (48 + k)) ++ [43, 47]

/-- The Base64 text of a byte buffer: its Symbols' characters, then the padding (R280, R281). -/
def base64Text (bs : List Byte) : List Byte :=
  (symbolsOf bs).map (fun c => alphabet.getD c.toNat 0)
    ++ List.replicate (padCount bs.length) padChar

end Sys2Proof.Machine
end

