-- ==== Sys2Proof/Certificates/Slice0/Obligations.lean ====
section
/-! DEFINITION. The statements for the provers. Each docstring names the rules of the spec it rests on. A
statement about a free value (a draw of R97 or R103) holds for every value of it. -/

open Sys2Proof Sys2Proof.Machine

/-! ### Encoding -/

/-- R125: the decoding procedure, on every 32-bit word: which words are which command, and which are
illegal. -/
def Obligations.DecodeReadsExactlyTheSevenWords : Prop :=
  ∀ w : Word,
    (∀ i, decode w = .ok i ↔ w = encode i) ∧
    (decode w = .error .reservedBits ↔ w.toNat / 16 ≠ 0) ∧
    (decode w = .error .reservedOpcode ↔ w.toNat / 16 = 0 ∧ 7 ≤ w.toNat % 16)

/-- R123: the seven command words, written out, decode to their commands; two illegal words do not. -/
def Obligations.TableWordsDecode : Prop :=
  decode 0x00000000 = .ok .nop ∧ decode 0x00000001 = .ok .xlEnc ∧ decode 0x00000002 = .ok .xlDec ∧
  decode 0x00000003 = .ok .xlEncB ∧ decode 0x00000004 = .ok .xlDecB ∧
  decode 0x00000005 = .ok .rpkEnc ∧ decode 0x00000006 = .ok .rpkDec ∧
  decode 0x00000007 = .error .reservedOpcode ∧ decode 0x00000015 = .error .reservedBits

/-! ### A step runs the decoded command -/

/-- R36, R151: a 4-byte host write of a legal command word to CMD while BUSY = 0 is one step, and that
step is `exec` of the decoded command, with the bus reply given. -/
def Obligations.StepRunsDecodedCommand : Prop :=
  ∀ (s : State) (w : Word) (i : Instr) (rest : List Input),
    s.inputs = .access (.write .reg 0x004 4 w) :: rest → s.statusBusy = false → decode w = .ok i →
    step s = exec i { s with inputs := rest, bus := .written }

/-- `withFetchWord` places a command so that the very next step runs it (log 6, the model's choice). -/
def Obligations.PlacedCommandRunsNext : Prop :=
  ∀ (s : State) (i : Instr),
    step (s.withFetchWord 32 (encode i).toNat) = exec i { s with statusBusy := false, bus := .written }

/-- R157: while BUSY = 1 the block's step is a step of the latched command OP_L; while BUSY = 0 the
block has no step. That an idle step leaves the state as it is, and when the block gets its turn, is
the model's choice (logs 5 and 7). -/
def Obligations.BlockStepsTheLatchedCommand : Prop :=
  ∀ (s : State),
    (s.inputs = [] → s.statusBusy = true → step s = exec s.opL s) ∧
    (s.inputs = [] → s.statusBusy = false → step s = .next s) ∧
    (∀ rest, s.inputs = .blockTurn :: rest → s.statusBusy = true →
      step s = exec s.opL { s with inputs := rest }) ∧
    (∀ rest, s.inputs = .blockTurn :: rest → s.statusBusy = false →
      step s = .next { s with inputs := rest })

/-- R127: each turn of the loop of WAIT is the host step `RD STATUS`; while bit 0 of the result is 1
the loop goes on, otherwise WAIT has ended. R345: waiting for the interrupt ends when IRQ is 1, and
until then the block takes its steps. How many turns the block gets between two polls is the
scheduler's (log 8, the model's choice), and so is that a host waits on for an IRQ that never comes. -/
def Obligations.WaitingGivesTheBlockItsSteps : Prop :=
  ∀ (s : State) (turns : List Nat) (rest : List Input),
    (s.inputs = .wait turns :: rest →
      ∃ (l : List Input) (v : Word),
        step s = hostAccess (.read .reg 0x008 4) { s with inputs := l } ∧
        step s = .next { s with inputs := l, bus := .data v } ∧
        v.getLsbD 0 = s.statusBusy ∧ v.getLsbD 1 = s.statusDone ∧
        (v.getLsbD 0 = true →
          l = List.replicate (turns.headD 1) .blockTurn ++ .wait turns.tail :: rest) ∧
        (v.getLsbD 0 = false → l = rest)) ∧
    (s.inputs = .waitIrq :: rest →
      (s.irq = true → step s = .next { s with inputs := rest }) ∧
      (s.irq = false → s.statusBusy = true → step s = exec s.opL s) ∧
      (s.irq = false → s.statusBusy = false → step s = .next s))

/-! ### The CMD write: checks and acceptance -/

/-- R153: the output lengths, in both of the rule's forms. -/
def Obligations.OutputLengths : Prop :=
  ∀ n : Nat,
    outLen .nop n = 0 ∧ outLen .xlEnc n = n ∧ outLen .xlDec n = n ∧ outLen .xlEncB n = 16 ∧
    outLen .xlDecB n = 16 ∧
    outLen .rpkEnc n = (4 * n + 2) / 3 ∧ ((outLen .rpkEnc n : Nat) : Int) = ⌈(8 * n : Rat) / 6⌉ ∧
    outLen .rpkDec n = (3 * n) / 4 ∧ ((outLen .rpkDec n : Nat) : Int) = ⌊(6 * n : Rat) / 8⌋

/-- R303: a CMD write while an operation runs sets ERR bit 1 and does nothing else, whatever the word
(legal or not). -/
def Obligations.CommandWhileBusyIsRejected : Prop :=
  ∀ (s : State) (w : Word) (rest : List Input),
    s.inputs = .access (.write .reg 0x004 4 w) :: rest → s.statusBusy = true →
    step s = .next { s with inputs := rest, bus := .written, err := s.err ||| 0b000010#6 }

/-- R124, R152: an illegal word written to CMD while BUSY = 0 sets ERR bit 0 and does nothing else. -/
def Obligations.IllegalCommandIsRejected : Prop :=
  ∀ (s : State) (w : Word) (rest : List Input),
    s.inputs = .access (.write .reg 0x004 4 w) :: rest → s.statusBusy = false →
    (w.toNat / 16 ≠ 0 ∨ 7 ≤ w.toNat % 16) →
    step s = .next { s with inputs := rest, bus := .written, err := s.err ||| 0b000001#6 }

/-- R154: a memory command whose source or destination range ends beyond BUF_SIZE, on unbounded
integers and also for empty ranges, sets ERR bit 2 and does nothing else, overlapping or not (R310). -/
def Obligations.RangeIsRejected : Prop :=
  ∀ (d : Instr) (s : State), d = .xlEnc ∨ d = .xlDec ∨ d = .rpkEnc ∨ d = .rpkDec →
    s.statusBusy = false →
    ¬(s.src.toNat + s.len.toNat ≤ s.cfg.bufSize ∧
      s.dst.toNat + outLen d s.len.toNat ≤ s.cfg.bufSize) →
    exec d s = .next { s with err := s.err ||| 0b000100#6 }

/-- R155: a memory command whose ranges fit but share a byte sets ERR bit 3 and does nothing else. -/
def Obligations.OverlapIsRejected : Prop :=
  ∀ (d : Instr) (s : State) (x : Nat), d = .xlEnc ∨ d = .xlDec ∨ d = .rpkEnc ∨ d = .rpkDec →
    s.statusBusy = false →
    s.src.toNat + s.len.toNat ≤ s.cfg.bufSize →
    s.dst.toNat + outLen d s.len.toNat ≤ s.cfg.bufSize →
    s.src.toNat ≤ x → x < s.src.toNat + s.len.toNat →
    s.dst.toNat ≤ x → x < s.dst.toNat + outLen d s.len.toNat →
    exec d s = .next { s with err := s.err ||| 0b001000#6 }

/-- R156: NOP, XL.ENCB and XL.DECB are accepted whatever SRC, DST and LEN hold; what acceptance
changes, and nothing else. -/
def Obligations.UncheckedCommandsAreAccepted : Prop :=
  ∀ (d : Instr) (s : State), d = .nop ∨ d = .xlEncB ∨ d = .xlDecB → s.statusBusy = false →
    exec d s = .next { s with
      opL := d, srcL := s.src, dstL := s.dst, lenL := s.len,
      outlen := if d = .nop then 0 else 16, progress := 0, lastOp := d, statusDone := false,
      statusBusy := true }

/-- R156: XL.ENC and XL.DEC are accepted when their ranges fit and share no byte. -/
def Obligations.TranslationsAreAccepted : Prop :=
  ∀ (d : Instr) (s : State), d = .xlEnc ∨ d = .xlDec → s.statusBusy = false →
    s.src.toNat + s.len.toNat ≤ s.cfg.bufSize → s.dst.toNat + s.len.toNat ≤ s.cfg.bufSize →
    RangesDisjoint s.src.toNat s.len.toNat s.dst.toNat s.len.toNat →
    exec d s = .next { s with
      opL := d, srcL := s.src, dstL := s.dst, lenL := s.len, outlen := s.len, progress := 0,
      lastOp := d, statusDone := false, statusBusy := true }

/-- R156, R231: RPK.ENC is accepted when its ranges fit and share no byte; the encode cursor is fresh
and the decode cursor stays. -/
def Obligations.RepackEncodeIsAccepted : Prop :=
  ∀ (s : State) (out : Nat), s.statusBusy = false → out = (4 * s.len.toNat + 2) / 3 →
    s.src.toNat + s.len.toNat ≤ s.cfg.bufSize → s.dst.toNat + out ≤ s.cfg.bufSize →
    RangesDisjoint s.src.toNat s.len.toNat s.dst.toNat out →
    exec .rpkEnc s = .next { s with
      opL := .rpkEnc, srcL := s.src, dstL := s.dst, lenL := s.len, outlen := BitVec.ofNat 32 out,
      progress := 0, lastOp := .rpkEnc, statusDone := false, statusBusy := true,
      ecur := 0, eph := 0b00 }

/-- R156, R241: RPK.DEC is accepted when its ranges fit and share no byte; the decode cursor is fresh
and the encode cursor stays. -/
def Obligations.RepackDecodeIsAccepted : Prop :=
  ∀ (s : State) (out : Nat), s.statusBusy = false → out = (3 * s.len.toNat) / 4 →
    s.src.toNat + s.len.toNat ≤ s.cfg.bufSize → s.dst.toNat + out ≤ s.cfg.bufSize →
    RangesDisjoint s.src.toNat s.len.toNat s.dst.toNat out →
    exec .rpkDec s = .next { s with
      opL := .rpkDec, srcL := s.src, dstL := s.dst, lenL := s.len, outlen := BitVec.ofNat 32 out,
      progress := 0, lastOp := .rpkDec, statusDone := false, statusBusy := true,
      dcur := 0, dlh := 0b11 }

/-! ### Completion and abort -/

/-- R159: the completion step of every command sets BUSY to 0 and DONE to 1 and changes nothing
else. -/
def Obligations.CompletionStep : Prop :=
  ∀ (i : Instr) (s : State), s.statusBusy = true → ¬(s.progress.toNat < s.outlen.toNat) →
    exec i s = .next { s with statusBusy := false, statusDone := true }

/-- R161: NOP from an idle block: accepted whatever SRC, DST and LEN hold, then completed by the next
block step; two steps, and what they change. -/
def Obligations.NopCompletesInOneBlockStep : Prop :=
  ∀ (s : State), s.statusBusy = false → s.inputs = [.access (.write .reg 0x004 4 0x00000000)] →
    steps 2 s = .next { s with
      inputs := [], bus := .written, opL := .nop, srcL := s.src, dstL := s.dst, lenL := s.len,
      outlen := 0, progress := 0, lastOp := .nop, statusDone := true, statusBusy := false }

/-- R245, R305: an RPK.DEC micro-step that finds DLH = 0b00 aborts: ERR bit 4, BUSY 0, DONE 1, and
nothing else, so no byte of BUFMEM and no draw. -/
def Obligations.IllegalPhaseAborts : Prop :=
  ∀ (s : State), s.statusBusy = true → s.progress.toNat < s.outlen.toNat → s.dlh = 0b00 →
    exec .rpkDec s = .next { s with
      err := s.err ||| 0b010000#6, statusBusy := false, statusDone := true }

/-! ### The Block Translator -/

/-- R185: the closed form of TE for every byte. -/
def Obligations.EncodeLaneClosedForm : Prop :=
  ∀ v : Byte, (te v).toNat =
    if v.toNat ≤ 25 then v.toNat + 65
    else if v.toNat ≤ 51 then v.toNat + 71
    else if v.toNat ≤ 61 then v.toNat - 4
    else if v.toNat = 62 then 43
    else if v.toNat = 63 then 47
    else v.toNat

/-- R186: the closed form of TD for every byte. -/
def Obligations.DecodeLaneClosedForm : Prop :=
  ∀ c : Byte, (td c).toNat =
    if 65 ≤ c.toNat ∧ c.toNat ≤ 90 then c.toNat - 65
    else if 97 ≤ c.toNat ∧ c.toNat ≤ 122 then c.toNat - 71
    else if 48 ≤ c.toNat ∧ c.toNat ≤ 57 then c.toNat + 4
    else if c.toNat = 43 then 62
    else if c.toNat = 47 then 63
    else c.toNat

/-- R187: TE and TD are inverse on the alphabet, and TE maps Symbol `k` to the `k`-th of the 64
characters. -/
def Obligations.LaneFunctionsAreInverse : Prop :=
  alphabet.length = 64 ∧ alphabet.Nodup ∧
  (∀ v : Byte, v.toNat < 64 → td (te v) = v ∧ alphabet[v.toNat]? = some (te v)) ∧
  (∀ c : Byte, c ∈ alphabet → te (td c) = c ∧ (td c).toNat < 64)

/-- R190, R191, R194: one micro-step of XL.ENC or XL.DEC, on any source bytes (a byte nothing has
written is a draw, R103): the cells of one block are translated, at most 16 and none beyond OUTLEN;
every other byte and every other register stays. -/
def Obligations.TranslationMicroStep : Prop :=
  ∀ (d : Instr) (f : Byte → Byte) (s : State) (base cnt : Nat),
    (d = .xlEnc ∧ f = te) ∨ (d = .xlDec ∧ f = td) → s.statusBusy = true →
    base = s.progress.toNat → base < s.outlen.toNat → cnt = min 16 (s.outlen.toNat - base) →
    s.srcL.toNat + s.outlen.toNat ≤ s.cfg.bufSize → s.dstL.toNat + s.outlen.toNat ≤ s.cfg.bufSize →
    ∃ (m : Memory) (n : Nat),
      exec d s = .next { s with
        mem := m, draws := n, progress := BitVec.ofNat 32 (base + cnt) } ∧
      SameOutside s.mem m (s.dstL.toNat + base) cnt ∧
      (∀ k, k < cnt → ∃ c, m.get (s.dstL.toNat + base + k) = some (f c) ∧
        ∀ b, s.mem.get (s.srcL.toNat + base + k) = some b → c = b)

/-- R192, R193: the one micro-step of XL.ENCB or XL.DECB translates all 16 lanes, sets PROGRESS to 16
and changes nothing else, so no byte of BUFMEM. -/
def Obligations.LaneMicroStep : Prop :=
  ∀ (d : Instr) (f : Byte → Byte) (s : State),
    (d = .xlEncB ∧ f = te) ∨ (d = .xlDecB ∧ f = td) → s.statusBusy = true →
    s.progress.toNat < s.outlen.toNat →
    ∃ w0 w1 w2 w3 : Word,
      exec d s = .next { s with blk0 := w0, blk1 := w1, blk2 := w2, blk3 := w3, progress := 16 } ∧
      ∀ l : Fin 16,
        State.lane { s with blk0 := w0, blk1 := w1, blk2 := w2, blk3 := w3 } l = f (s.lane l)

/-- R190: XL.ENC as a whole, on written source cells: accepted, `ceil(n/16)` micro-steps, completed,
and every destination cell is TE of its source cell. Nothing else changes but the registers named. -/
def Obligations.XlEncTranslatesItsSource : Prop :=
  ∀ (s : State) (cells : List Byte), s.statusBusy = false →
    s.inputs = [.access (.write .reg 0x004 4 0x00000001)] → s.len.toNat = cells.length →
    s.src.toNat + cells.length ≤ s.cfg.bufSize → s.dst.toNat + cells.length ≤ s.cfg.bufSize →
    RangesDisjoint s.src.toNat cells.length s.dst.toNat cells.length →
    Holds s.mem s.src.toNat cells →
    ∃ m, steps (1 + (cells.length + 15) / 16 + 1) s = .next { s with
        mem := m, inputs := [], bus := .written, opL := .xlEnc, srcL := s.src, dstL := s.dst,
        lenL := s.len, outlen := s.len, progress := s.len, lastOp := .xlEnc, statusDone := true,
        statusBusy := false } ∧
      Holds m s.dst.toNat (cells.map te) ∧ SameOutside s.mem m s.dst.toNat cells.length

/-- R191: XL.DEC as a whole, on written source cells. -/
def Obligations.XlDecTranslatesItsSource : Prop :=
  ∀ (s : State) (cells : List Byte), s.statusBusy = false →
    s.inputs = [.access (.write .reg 0x004 4 0x00000002)] → s.len.toNat = cells.length →
    s.src.toNat + cells.length ≤ s.cfg.bufSize → s.dst.toNat + cells.length ≤ s.cfg.bufSize →
    RangesDisjoint s.src.toNat cells.length s.dst.toNat cells.length →
    Holds s.mem s.src.toNat cells →
    ∃ m, steps (1 + (cells.length + 15) / 16 + 1) s = .next { s with
        mem := m, inputs := [], bus := .written, opL := .xlDec, srcL := s.src, dstL := s.dst,
        lenL := s.len, outlen := s.len, progress := s.len, lastOp := .xlDec, statusDone := true,
        statusBusy := false } ∧
      Holds m s.dst.toNat (cells.map td) ∧ SameOutside s.mem m s.dst.toNat cells.length

/-- R192, R193: XL.ENCB and XL.DECB as a whole: three steps from the CMD write, whatever SRC, DST and
LEN hold, and only the lanes and the registers named change. -/
def Obligations.BlockRegisterCommandsTranslateTheLanes : Prop :=
  ∀ (d : Instr) (f : Byte → Byte) (s : State),
    (d = .xlEncB ∧ f = te) ∨ (d = .xlDecB ∧ f = td) → s.statusBusy = false →
    s.inputs = [.access (.write .reg 0x004 4 (if d = .xlEncB then 0x00000003 else 0x00000004))] →
    ∃ w0 w1 w2 w3 : Word,
      steps 3 s = .next { s with
        blk0 := w0, blk1 := w1, blk2 := w2, blk3 := w3, inputs := [], bus := .written, opL := d,
        srcL := s.src, dstL := s.dst, lenL := s.len, outlen := 16, progress := 16, lastOp := d,
        statusDone := true, statusBusy := false } ∧
      ∀ l : Fin 16,
        State.lane { s with blk0 := w0, blk1 := w1, blk2 := w2, blk3 := w3 } l = f (s.lane l)

/-! ### The Bit Repacker -/

/-- R236: the phase cycle from any cursor: the new bit_index and its value modulo 8, the byte index and
the phase code after a Symbol. `bitsFromLast` gives the phase its code stands for. -/
def Obligations.EncodePhaseCycle : Prop :=
  bitsFromLast 0b00 = 0 ∧ bitsFromLast 0b01 = 2 ∧ bitsFromLast 0b10 = 4 ∧ bitsFromLast 0b11 = -2 ∧
  ∀ i : Nat,
    (8 * (i : Int) - bitsFromLast 0b00 + 6 = 8 * i + 6 ∧ (8 * (i : Int) + 6) % 8 = 6 ∧
      nextByteIndex i 0b00 = i + 1 ∧ nextEph i 0b00 = 0b01) ∧
    (8 * (i : Int) - bitsFromLast 0b01 + 6 = 8 * i + 4 ∧ (8 * (i : Int) + 4) % 8 = 4 ∧
      nextByteIndex i 0b01 = i + 1 ∧ nextEph i 0b01 = 0b10) ∧
    (8 * (i : Int) - bitsFromLast 0b10 + 6 = 8 * i + 2 ∧ (8 * (i : Int) + 2) % 8 = 2 ∧
      nextByteIndex i 0b10 = i ∧ nextEph i 0b10 = 0b11) ∧
    (8 * (i : Int) - bitsFromLast 0b11 + 6 = 8 * i + 8 ∧ (8 * (i : Int) + 8) % 8 = 0 ∧
      nextByteIndex i 0b11 = i + 1 ∧ nextEph i 0b11 = 0b00)

/-- R233–R236, R239: one micro-step of RPK.ENC in each of its four phases, on any source bytes. The
Symbol is the rule's formula of the bytes `rd` gives (a source byte nothing has written is a draw),
only the destination cell of PROGRESS changes in BUFMEM, and the cursor advances. -/
def Obligations.RepackEncodeMicroStep : Prop :=
  ∀ (s : State) (i : Nat), s.statusBusy = true → s.progress.toNat < s.outlen.toNat →
    i = s.ecur.toNat → i + 1 < 2 ^ 32 → (s.eph = 0b01 ∨ s.eph = 0b10 → 1 ≤ i) →
    s.srcL.toNat + s.lenL.toNat ≤ s.cfg.bufSize →
    s.dstL.toNat + s.progress.toNat < s.cfg.bufSize →
    ∃ (n : Nat) (p c v : Byte),
      exec .rpkEnc s = .next { s with
        mem := s.mem.set (s.dstL.toNat + s.progress.toNat) v, draws := n,
        progress := s.progress + 1,
        ecur := BitVec.ofNat 32 (if s.eph = 0b10 then i else i + 1),
        eph := s.eph + 1 } ∧
      (∀ b, SourceIs s (i - 1) b → s.eph = 0b01 ∨ s.eph = 0b10 → p = b) ∧
      (∀ b, SourceIs s i b → c = b) ∧
      (s.eph = 0b00 → v = c >>> 2) ∧
      (s.eph = 0b01 → v = ((p <<< 4) &&& 0x30#8) ||| (c >>> 4)) ∧
      (s.eph = 0b10 → v = ((p <<< 2) &&& 0x3C#8) ||| (c >>> 6)) ∧
      (s.eph = 0b11 → v = c &&& 0x3F#8)

/-- R240: the cell an RPK.ENC micro-step writes has bits 7:6 = 0, in every phase and for every source
byte. -/
def Obligations.RepackEncodeWritesSymbols : Prop :=
  ∀ (s t : State) (b : Byte), s.statusBusy = true → s.progress.toNat < s.outlen.toNat →
    exec .rpkEnc s = .next t → t.mem.get (s.dstL.toNat + s.progress.toNat) = some b →
    b.toNat < 64

/-- R242, R243, R246: one micro-step of RPK.DEC in each of its three phases, on any source cells,
Symbols or not (R248). Only the destination cell of PROGRESS changes in BUFMEM. -/
def Obligations.RepackDecodeMicroStep : Prop :=
  ∀ (s : State) (p : Nat), s.statusBusy = true → s.progress.toNat < s.outlen.toNat →
    p = s.dcur.toNat → s.dlh ≠ 0b00 →
    s.srcL.toNat + p + 1 < s.cfg.bufSize → s.dstL.toNat + s.progress.toNat < s.cfg.bufSize →
    ∃ (n : Nat) (a b v : Byte),
      exec .rpkDec s = .next { s with
        mem := s.mem.set (s.dstL.toNat + s.progress.toNat) v, draws := n,
        progress := s.progress + 1,
        dcur := BitVec.ofNat 32 (if s.dlh = 0b01 then p + 2 else p + 1),
        dlh := if s.dlh = 0b01 then 0b11 else s.dlh - 1 } ∧
      (∀ x, s.mem.get (s.srcL.toNat + p) = some x → a = x) ∧
      (∀ x, s.mem.get (s.srcL.toNat + p + 1) = some x → b = x) ∧
      (s.dlh = 0b11 → v = (a <<< 2) ||| (b >>> 4)) ∧
      (s.dlh = 0b10 → v = (a <<< 4) ||| (b >>> 2)) ∧
      (s.dlh = 0b01 → v = (a <<< 6) ||| b)

/-- R230, R239: RPK.ENC as a whole, on written source bytes: one micro-step a Symbol, the Symbols of
the bit stream at the destination, the final cursor by `n mod 3`, and nothing else changes but the
registers named. -/
def Obligations.RpkEncRepacksItsSource : Prop :=
  ∀ (s : State) (bytes : List Byte), s.cfg.wf = true → s.statusBusy = false →
    s.inputs = [.access (.write .reg 0x004 4 0x00000005)] → s.len.toNat = bytes.length →
    s.src.toNat + bytes.length ≤ s.cfg.bufSize →
    s.dst.toNat + (4 * bytes.length + 2) / 3 ≤ s.cfg.bufSize →
    RangesDisjoint s.src.toNat bytes.length s.dst.toNat ((4 * bytes.length + 2) / 3) →
    Holds s.mem s.src.toNat bytes →
    ∃ m, steps (1 + (4 * bytes.length + 2) / 3 + 1) s = .next { s with
        mem := m, inputs := [], bus := .written, opL := .rpkEnc, srcL := s.src, dstL := s.dst,
        lenL := s.len, outlen := BitVec.ofNat 32 ((4 * bytes.length + 2) / 3),
        progress := BitVec.ofNat 32 ((4 * bytes.length + 2) / 3), lastOp := .rpkEnc,
        statusDone := true, statusBusy := false,
        ecur := BitVec.ofNat 32 (if bytes.length % 3 = 1 then bytes.length + 1 else bytes.length),
        eph := if bytes.length % 3 = 0 then 0b00 else if bytes.length % 3 = 1 then 0b10 else 0b11 } ∧
      Holds m s.dst.toNat (symbolsOf bytes) ∧
      SameOutside s.mem m s.dst.toNat ((4 * bytes.length + 2) / 3)

/-- R246, R248: RPK.DEC as a whole, on written source cells, Symbols or not: one micro-step a byte, the
formula's bytes at the destination, the final cursor of R243, and nothing else changes but the
registers named. When every cell is a Symbol the bytes are those of the cells' bit stream. -/
def Obligations.RpkDecRepacksItsSource : Prop :=
  ∀ (s : State) (cells : List Byte) (out : Nat), s.cfg.wf = true → s.statusBusy = false →
    s.inputs = [.access (.write .reg 0x004 4 0x00000006)] → s.len.toNat = cells.length →
    out = (3 * cells.length) / 4 →
    s.src.toNat + cells.length ≤ s.cfg.bufSize → s.dst.toNat + out ≤ s.cfg.bufSize →
    RangesDisjoint s.src.toNat cells.length s.dst.toNat out →
    Holds s.mem s.src.toNat cells →
    ∃ m, steps (1 + out + 1) s = .next { s with
        mem := m, inputs := [], bus := .written, opL := .rpkDec, srcL := s.src, dstL := s.dst,
        lenL := s.len, outlen := BitVec.ofNat 32 out, progress := BitVec.ofNat 32 out,
        lastOp := .rpkDec, statusDone := true, statusBusy := false,
        dcur := BitVec.ofNat 32 (out + out / 3), dlh := BitVec.ofNat 2 (3 - out % 3) } ∧
      Holds m s.dst.toNat (repackedBytes cells) ∧ SameOutside s.mem m s.dst.toNat out ∧
      ((∀ c ∈ cells, c.toNat < 64) → Holds m s.dst.toNat (bytesOfSymbols cells))

/-- R247: RPK.DEC of the Symbols that RPK.ENC makes of a byte buffer writes that buffer back, with no
strip. The host runs RPK.ENC from `a` to `b` and then RPK.DEC from `b` to `c`, whatever turns the block
gets before the first poll and between the polls of each WAIT (log 8). -/
def Obligations.RepackDecodeInvertsRepackEncode : Prop :=
  ∀ (s : State) (bytes : List Byte) (a b c m : Nat) (turns₁ turns₂ : List Nat),
    s.cfg.wf = true → s.statusBusy = false →
    m = (4 * bytes.length + 2) / 3 →
    s.inputs = hostRUN .rpkEnc a b bytes.length turns₁ ++ hostRUN .rpkDec b c m turns₂ →
    a + bytes.length ≤ s.cfg.bufSize → b + m ≤ s.cfg.bufSize → c + bytes.length ≤ s.cfg.bufSize →
    RangesDisjoint a bytes.length b m → RangesDisjoint b m c bytes.length →
    Holds s.mem a bytes →
    ∃ (k : Nat) (t : State), steps k s = .next t ∧ t.inputs = [] ∧ t.statusBusy = false ∧
      t.err = s.err ∧ t.outlen.toNat = bytes.length ∧ Holds t.mem c bytes

/-! ### Every step -/

/-- The invariant holds right after reset. -/
def Obligations.ResetMeetsTheInvariant : Prop := State.reset.Inv

/-- Every step of every agent keeps the invariant (R47, R51, R154–R156, R236, R238, R243, R245). -/
def Obligations.StepKeepsTheInvariant : Prop :=
  ∀ s t : State, s.Inv → step s = .next t → t.Inv

/-- R305, R309, R311: from a state that meets the invariant no step stops the machine, whatever the
host does and whatever the bytes are: every step answers a next state. -/
def Obligations.NoStepStopsTheMachine : Prop :=
  ∀ s : State, s.Inv → ∃ t, step s = .next t

/-- R160: an accepted operation takes exactly its number of micro-steps and one completion step, and
BUSY is 1 until then. That the block has every turn when no input is pending, which stands for the weak
fairness of the rule, is the model's choice (log 5). -/
def Obligations.EveryAcceptedOperationEnds : Prop :=
  ∀ s : State, s.Inv → s.statusBusy = true → s.progress = 0 → s.inputs = [] →
    (∀ k, k ≤ microSteps s.opL s.outlen.toNat → ∃ u, steps k s = .next u ∧ u.statusBusy = true) ∧
    ∃ t, steps (microSteps s.opL s.outlen.toNat + 1) s = .next t ∧ t.statusBusy = false ∧
      t.statusDone = true ∧ t.progress = s.outlen ∧ t.outlen = s.outlen

/-- R160: an operation that runs ends, whatever the host does meanwhile. The weak fairness that the rule
rests on is the model's finite list of inputs (log 5), after which the block has every turn. -/
def Obligations.RunningOperationEndsUnderEveryHost : Prop :=
  ∀ s : State, s.Inv → s.statusBusy = true →
    ∃ (k : Nat) (t : State), steps k s = .next t ∧ t.statusBusy = false

/-- R47, R164: while an operation runs, and unless the reset input is asserted, no step of any agent
lets PROGRESS fall or pass OUTLEN, and OUTLEN stays. -/
def Obligations.ProgressOnlyAdvances : Prop :=
  ∀ s t : State, s.Inv → s.statusBusy = true → (∀ rest, s.inputs ≠ .reset :: rest) →
    step s = .next t →
    s.progress.toNat ≤ t.progress.toNat ∧ t.progress.toNat ≤ t.outlen.toNat ∧ t.outlen = s.outlen

/-- The parameters of R8 never change. -/
def Obligations.ParametersNeverChange : Prop :=
  ∀ s t : State, step s = .next t → t.cfg = s.cfg

/-! ### The host's accesses -/

/-- R81, R84, R308: an illegal access of the register region is a BusError, and changes no register, no
byte of BUFMEM and no ERR bit, whether the block is busy or not. That legality goes before the BUSY
rules of BLK0 to BLK3 is the model's reading (log 10). -/
def Obligations.IllegalRegisterAccessIsABusError : Prop :=
  ∀ (s : State) (off n : Nat) (v : Word) (rest : List Input),
    ¬(n = 4 ∧ off % 4 = 0 ∧ off < 0x100) →
    s.inputs = .access (.read .reg off n) :: rest ∨ s.inputs = .access (.write .reg off n v) :: rest →
    step s = .next { s with inputs := rest, bus := .busError }

/-- R82, R84, R308: the same for the buffer region. That this goes before the BUSY rules is the
model's reading (log 10). -/
def Obligations.IllegalBufferAccessIsABusError : Prop :=
  ∀ (s : State) (off n : Nat) (v : Word) (rest : List Input),
    ¬((n = 1 ∨ n = 2 ∨ n = 4) ∧ off % n = 0 ∧ off + n ≤ s.cfg.bufSize) →
    s.inputs = .access (.read .buf off n) :: rest ∨ s.inputs = .access (.write .buf off n v) :: rest →
    step s = .next { s with inputs := rest, bus := .busError }

/-- R32, R33, R36–R42, R50, R51: a legal register read returns the register's value and changes
nothing but the bus reply; CMD and the reserved offsets read 0, and so do the reserved bits. -/
def Obligations.RegisterReadsReturnTheMap : Prop :=
  ∀ (s : State) (off : Nat) (rest : List Input),
    s.inputs = .access (.read .reg off 4) :: rest → off % 4 = 0 → off < 0x100 →
    (s.statusBusy = true → off < 0x040 ∨ 0x050 ≤ off) →
    ∃ v : Word, step s = .next { s with inputs := rest, bus := .data v } ∧
      (off = 0x000 → v = 0x0B640001) ∧
      (off = 0x004 → v = 0) ∧
      (off = 0x008 → v.toNat = s.statusBusy.toNat + 2 * s.statusDone.toNat +
        4 * (if s.err = 0 then 0 else 1) + 16 * (opcode s.lastOp).toNat) ∧
      (off = 0x00C → v.toNat = s.err.toNat) ∧
      (off = 0x010 → v.toNat = s.doneIE.toNat + 2 * s.errIE.toNat) ∧
      (off = 0x014 → v = s.src) ∧ (off = 0x018 → v = s.dst) ∧ (off = 0x01C → v = s.len) ∧
      (off = 0x020 → v = s.outlen) ∧ (off = 0x024 → v = s.progress) ∧
      (off = 0x028 → v = s.ecur) ∧ (off = 0x02C → v = s.dcur) ∧
      (off = 0x030 → v.toNat = s.eph.toNat + 16 * s.dlh.toNat) ∧
      (0x034 ≤ off ∧ off ≤ 0x03C → v = 0) ∧
      (off = 0x040 → v = s.blk0) ∧ (off = 0x044 → v = s.blk1) ∧
      (off = 0x048 → v = s.blk2) ∧ (off = 0x04C → v = s.blk3) ∧
      (0x050 ≤ off → v = 0)

/-- R38, R41–R45: a host write of STATUS, ERR, INTEN, SRC, DST or LEN takes effect while BUSY = 0 and
while BUSY = 1, and changes nothing else. -/
def Obligations.RegisterWritesTakeEffect : Prop :=
  ∀ (s : State) (off : Nat) (v : Word) (rest : List Input),
    s.inputs = .access (.write .reg off 4 v) :: rest →
    (off = 0x008 → step s = .next { s with
      inputs := rest, bus := .written,
      statusDone := if v.getLsbD 1 then false else s.statusDone }) ∧
    (off = 0x00C → ∃ e : BitVec 6,
      step s = .next { s with inputs := rest, bus := .written, err := e } ∧
      ∀ k, k < 6 → e.getLsbD k = if v.getLsbD k then false else s.err.getLsbD k) ∧
    (off = 0x010 → step s = .next { s with
      inputs := rest, bus := .written, doneIE := v.getLsbD 0, errIE := v.getLsbD 1 }) ∧
    (off = 0x014 → step s = .next { s with inputs := rest, bus := .written, src := v }) ∧
    (off = 0x018 → step s = .next { s with inputs := rest, bus := .written, dst := v }) ∧
    (off = 0x01C → step s = .next { s with inputs := rest, bus := .written, len := v })

/-- R33, R34: a write to a read-only register or to a reserved offset is ignored and records no
error. -/
def Obligations.ReadOnlyWritesAreIgnored : Prop :=
  ∀ (s : State) (off : Nat) (v : Word) (rest : List Input),
    s.inputs = .access (.write .reg off 4 v) :: rest → off % 4 = 0 → off < 0x100 →
    off = 0x000 ∨ (0x020 ≤ off ∧ off ≤ 0x03C) ∨ 0x050 ≤ off →
    step s = .next { s with inputs := rest, bus := .written }

/-- R52, R53: while BUSY = 0 a host write of BLKi replaces lanes 4i to 4i + 3 at once by the bytes of
the word, lowest first, and no other lane changes. -/
def Obligations.BlockRegisterWriteReplacesFourLanes : Prop :=
  ∀ (s : State) (i : Fin 4) (v : Word) (rest : List Input),
    s.inputs = .access (.write .reg (0x040 + 4 * i.val) 4 v) :: rest → s.statusBusy = false →
    ∃ w0 w1 w2 w3 : Word,
      step s = .next { s with
        inputs := rest, bus := .written, blk0 := w0, blk1 := w1, blk2 := w2, blk3 := w3 } ∧
      ∀ l : Fin 16,
        State.lane { s with blk0 := w0, blk1 := w1, blk2 := w2, blk3 := w3 } l =
          if l.val / 4 = i.val then v.extractLsb' (8 * (l.val % 4)) 8 else s.lane l

/-- R85: while BUSY = 0 a legal host write of `n` bytes stores the value's bytes, lowest first, and
changes no other byte and no register. -/
def Obligations.BufferWriteIsLittleEndian : Prop :=
  ∀ (s : State) (off n : Nat) (v : Word) (rest : List Input),
    s.inputs = .access (.write .buf off n v) :: rest → n = 1 ∨ n = 2 ∨ n = 4 → off % n = 0 →
    off + n ≤ s.cfg.bufSize → s.statusBusy = false →
    ∃ m, step s = .next { s with inputs := rest, bus := .written, mem := m } ∧
      (∀ k, k < n → m.get (off + k) = some (v.extractLsb' (8 * k) 8)) ∧
      SameOutside s.mem m off n

/-- R85, R103: while BUSY = 0 a legal host read of `n` bytes returns them little-endian, a byte nothing
has written being a free byte, and changes nothing but the bus reply and the count of draws. -/
def Obligations.BufferReadIsLittleEndian : Prop :=
  ∀ (s : State) (off n : Nat) (rest : List Input),
    s.inputs = .access (.read .buf off n) :: rest → n = 1 ∨ n = 2 ∨ n = 4 → off % n = 0 →
    off + n ≤ s.cfg.bufSize → s.statusBusy = false →
    ∃ (v : Word) (d : Nat), step s = .next { s with inputs := rest, bus := .data v, draws := d } ∧
      v.toNat < 256 ^ n ∧
      ∀ k b, k < n → s.mem.get (off + k) = some b → v.extractLsb' (8 * k) 8 = b

/-- R98, R307: while BUSY = 1 a legal host write of BUF or of BLK0..BLK3 changes no byte, sets ERR bit
5 and leaves the running operation as it is. -/
def Obligations.BufferWriteWhileBusyIsDiscarded : Prop :=
  ∀ (s : State) (r : Region) (off n : Nat) (v : Word) (rest : List Input),
    s.inputs = .access (.write r off n v) :: rest → s.statusBusy = true →
    (r = .buf ∧ (n = 1 ∨ n = 2 ∨ n = 4) ∧ off % n = 0 ∧ off + n ≤ s.cfg.bufSize) ∨
      (r = .reg ∧ n = 4 ∧ (off = 0x040 ∨ off = 0x044 ∨ off = 0x048 ∨ off = 0x04C)) →
    step s = .next { s with inputs := rest, bus := .written, err := s.err ||| 0b100000#6 }

/-- R97: while BUSY = 1 a legal host read of BUF or of BLK0..BLK3 returns a free value of the access
width, has no effect and records no error. -/
def Obligations.BufferReadWhileBusyHasNoEffect : Prop :=
  ∀ (s : State) (r : Region) (off n : Nat) (rest : List Input),
    s.inputs = .access (.read r off n) :: rest → s.statusBusy = true →
    (r = .buf ∧ (n = 1 ∨ n = 2 ∨ n = 4) ∧ off % n = 0 ∧ off + n ≤ s.cfg.bufSize) ∨
      (r = .reg ∧ n = 4 ∧ (off = 0x040 ∨ off = 0x044 ∨ off = 0x048 ∨ off = 0x04C)) →
    ∃ (v : Word) (d : Nat), step s = .next { s with inputs := rest, bus := .data v, draws := d } ∧
      v.toNat < 256 ^ n

/-- R60, R303, R307, R346: whatever access the host makes while BUSY = 1, it completes, and the
operation, its latches, its counters, its cursors, the lanes and BUFMEM stay as they are. -/
def Obligations.HostCannotDisturbARunningOperation : Prop :=
  ∀ (s : State) (a : HostAccess) (rest : List Input),
    s.inputs = .access a :: rest → s.statusBusy = true →
    ∃ (e : BitVec 6) (d p q : Bool) (x y z : Word) (n : Nat) (r : BusReply),
      step s = .next { s with
        err := e, statusDone := d, doneIE := p, errIE := q, src := x, dst := y, len := z,
        draws := n, inputs := rest, bus := r }

/-- R60: a micro-step or completion step reads the latched copies, never SRC, DST, LEN or INTEN: with
other values in those it takes the same step. -/
def Obligations.BlockStepsIgnoreTheHostRegisters : Prop :=
  ∀ (i : Instr) (s t : State) (x y z : Word) (p q : Bool), s.statusBusy = true →
    exec i s = .next t →
    exec i { s with src := x, dst := y, len := z, doneIE := p, errIE := q } =
      .next { t with src := x, dst := y, len := z, doneIE := p, errIE := q }

/-- R55: the interrupt output. -/
def Obligations.InterruptOutput : Prop :=
  ∀ s : State, s.irq = true ↔
    (s.statusDone = true ∧ s.doneIE = true) ∨ (s.err ≠ 0 ∧ s.errIE = true)

/-- R313: with DONEIE = 1 and ERRIE = 0 acceptance lowers IRQ, completion raises it, and clearing DONE
lowers it. -/
def Obligations.InterruptFollowsTheOperation : Prop :=
  ∀ (d : Instr) (s t : State), s.doneIE = true → s.errIE = false → exec d s = .next t →
    (s.statusBusy = false → t.statusBusy = true → t.irq = false) ∧
    (s.statusBusy = true → t.statusBusy = false → t.irq = true ∧ (writeStatus 0x2 t).irq = false)

/-- R65, R340–R342: the reset input, at any time, gives every register and hidden register its reset
value, the block is idle, IRQ is 0 and no byte of BUFMEM is known. -/
def Obligations.ResetInputRestoresEveryRegister : Prop :=
  ∀ (s : State) (rest : List Input), s.inputs = .reset :: rest →
    ∃ t, step s = .next t ∧
      t.statusBusy = false ∧ t.statusDone = false ∧ t.lastOp = .nop ∧ t.err = 0 ∧
      t.doneIE = false ∧ t.errIE = false ∧ t.src = 0 ∧ t.dst = 0 ∧ t.len = 0 ∧ t.outlen = 0 ∧
      t.progress = 0 ∧ t.ecur = 0 ∧ t.dcur = 0 ∧ t.eph = 0b00 ∧ t.dlh = 0b11 ∧
      t.blk0 = 0 ∧ t.blk1 = 0 ∧ t.blk2 = 0 ∧ t.blk3 = 0 ∧ t.opL = .nop ∧ t.srcL = 0 ∧
      t.dstL = 0 ∧ t.lenL = 0 ∧ t.irq = false ∧ (∀ a, t.mem.get a = none) ∧
      readRegister 0x000 t = 0x0B640001 ∧ readRegister 0x008 t = 0 ∧ readRegister 0x00C t = 0 ∧
      readRegister 0x010 t = 0 ∧ readRegister 0x030 t = 0x00000030

/-- R80, R91: a host address in a region reaches that region at the offset from its base, when the two
windows do not meet. -/
def Obligations.HostAddressesReachTheirRegion : Prop :=
  ∀ (c : Config), c.regBase + 0x100 ≤ c.bufBase ∨ c.bufBase + c.bufSize ≤ c.regBase →
    (∀ off, off < 0x100 → regionOf c (hostAddress c .reg off) = some (.reg, off)) ∧
    (∀ off, off < c.bufSize → regionOf c (hostAddress c .buf off) = some (.buf, off)) ∧
    (∀ a, regionOf c a = none ↔
      ¬(c.regBase ≤ a ∧ a < c.regBase + 0x100) ∧ ¬(c.bufBase ≤ a ∧ a < c.bufBase + c.bufSize))

/-! ### The host procedures -/

/-- R281: PadCount, in both of the rule's forms. -/
def Obligations.PaddingCounts : Prop :=
  ∀ n : Nat, some (padCount n) = [0, 2, 1][n % 3]? ∧
    some (padCount n) = [0, 0, 2, 1][outLen .rpkEnc n % 4]? ∧ outLen .rpkEnc n % 4 ≠ 1

/-- R280: the procedure ENCODE writes the Base64 text of any byte buffer, with no error, from any idle
state, and changes no byte outside its three buffers, whatever turns the block gets before the first
poll and between the polls of each WAIT (log 8). That the bytes are written with SB
and that the host does not branch on ERR is the model's choice (log 20). -/
def Obligations.EncodeProcedureWritesBase64 : Prop :=
  ∀ (s : State) (bytes : List Byte) (inA symA outA m : Nat) (turns₁ turns₂ : List Nat),
    s.cfg.wf = true → s.statusBusy = false → m = outLen .rpkEnc bytes.length →
    s.inputs = encodeProcedure inA symA outA bytes turns₁ turns₂ →
    inA + bytes.length ≤ s.cfg.bufSize → symA + m ≤ s.cfg.bufSize →
    outA + (m + 2) ≤ s.cfg.bufSize →
    RangesDisjoint inA bytes.length symA m → RangesDisjoint inA bytes.length outA (m + 2) →
    RangesDisjoint symA m outA (m + 2) →
    ∃ (k : Nat) (t : State), steps k s = .next t ∧ t.inputs = [] ∧ t.statusBusy = false ∧
      t.err = s.err ∧
      bufferBytes t.mem outA (encodeResultLength bytes.length) = (base64Text bytes).map some ∧
      (base64Text bytes).length = (bytes.length + 2) / 3 * 4 ∧
      Holds t.mem inA bytes ∧
      (∀ x, (x < inA ∨ inA + bytes.length ≤ x) → (x < symA ∨ symA + m ≤ x) →
        (x < outA ∨ outA + (m + 2) ≤ x) → t.mem.get x = s.mem.get x)

/-- R282, R286: the procedure DECODE runs to its end on every text, well formed or not, with no error,
and its result is the bytes that the lane function TD and the formula of R242 give, less the strip of
R283, whatever turns the block gets before the first poll and between the polls of each WAIT (log 8).
That the bytes are written with SB and that the host does not branch on ERR is the model's choice
(log 20). -/
def Obligations.DecodeProcedureRunsOnEveryText : Prop :=
  ∀ (s : State) (text : List Byte) (inA symA outA m : Nat) (turns₁ turns₂ : List Nat),
    s.cfg.wf = true → s.statusBusy = false → m = (3 * text.length) / 4 →
    s.inputs = decodeProcedure inA symA outA text turns₁ turns₂ →
    inA + text.length ≤ s.cfg.bufSize → symA + text.length ≤ s.cfg.bufSize →
    outA + m ≤ s.cfg.bufSize →
    RangesDisjoint inA text.length symA text.length → RangesDisjoint inA text.length outA m →
    RangesDisjoint symA text.length outA m →
    ∃ (k : Nat) (t : State), steps k s = .next t ∧ t.inputs = [] ∧ t.statusBusy = false ∧
      t.err = s.err ∧
      bufferBytes t.mem outA (decodeResultLength text) =
        ((repackedBytes (text.map td)).take (m - stripCount text)).map some

/-- R284: DECODE of the Base64 text of any byte buffer gives that buffer back, with the padding and
with it left off, whatever turns the block gets before the first poll and between the polls of each
WAIT (log 8). That the bytes are written with SB and that the host does not branch on ERR is the
model's choice (log 20). -/
def Obligations.DecodeProcedureInvertsEncode : Prop :=
  ∀ (s : State) (bytes text : List Byte) (inA symA outA m : Nat) (turns₁ turns₂ : List Nat),
    s.cfg.wf = true → s.statusBusy = false →
    text = base64Text bytes ∨ text = (base64Text bytes).take (outLen .rpkEnc bytes.length) →
    m = (3 * text.length) / 4 →
    s.inputs = decodeProcedure inA symA outA text turns₁ turns₂ →
    inA + text.length ≤ s.cfg.bufSize → symA + text.length ≤ s.cfg.bufSize →
    outA + m ≤ s.cfg.bufSize →
    RangesDisjoint inA text.length symA text.length → RangesDisjoint inA text.length outA m →
    RangesDisjoint symA text.length outA m →
    ∃ (k : Nat) (t : State), steps k s = .next t ∧ t.inputs = [] ∧ t.statusBusy = false ∧
      t.err = s.err ∧ decodeResultLength text = bytes.length ∧ Holds t.mem outA bytes
end

