-- ==== Sys2Proof/Laws/Memory.lean ====
section
/-! SUPPORT. Buffer memory: read after write, the canonical form, and what reading and writing several
cells can do. -/

namespace Sys2Proof.Machine

/-! ### One byte -/

@[simp] theorem Memory.get_nil (a : Nat) : Memory.get [] a = none := rfl

/-- The memory right after reset lists nothing, so it is in canonical form. -/
theorem reset_mem_wf : State.reset.mem.wf := List.Pairwise.nil

theorem Memory.get_cons (k : Nat) (v : Byte) (m : Memory) (a : Nat) :
    Memory.get ((k, v) :: m) a = if a = k then some v else Memory.get m a := rfl

@[simp] theorem Memory.get_set_self (m : Memory) (a : Nat) (b : Byte) :
    (m.set a b).get a = some b := by
  induction m with
  | nil => simp [Memory.set, Memory.get]
  | cons c m ih =>
    obtain ⟨k, v⟩ := c
    simp only [Memory.set]
    split
    · simp [Memory.get]
    · split
      · simp [Memory.get]
      · rw [Memory.get_cons, if_neg ‹_›, ih]

theorem Memory.get_set_of_ne (m : Memory) {a x : Nat} (b : Byte) (h : x ≠ a) :
    (m.set a b).get x = m.get x := by
  induction m with
  | nil => simp [Memory.set, Memory.get, h]
  | cons c m ih =>
    obtain ⟨k, v⟩ := c
    simp only [Memory.set]
    split
    · simp [Memory.get, h]
    · split
      · rename_i hk
        subst hk
        simp [Memory.get, h]
      · rw [Memory.get_cons, ih, Memory.get_cons]

/-- The cells of a written memory are the new cell and cells of the old one. -/
theorem Memory.mem_set {m : Memory} {a : Nat} {b : Byte} {c : Host.Cell}
    (h : c ∈ m.set a b) : c = (a, b) ∨ c ∈ m := by
  induction m with
  | nil => simpa [Memory.set] using h
  | cons d m ih =>
    obtain ⟨k, v⟩ := d
    simp only [Memory.set] at h
    split at h
    · simpa using h
    · split at h
      · simp only [List.mem_cons] at h ⊢
        tauto
      · rcases List.mem_cons.mp h with h | h
        · exact .inr (by simp [h])
        · rcases ih h with h | h
          · exact .inl h
          · exact .inr (by simp [h])

/-- A write keeps the canonical form. -/
theorem Memory.wf_set {m : Memory} (a : Nat) (b : Byte) (h : m.wf) : (m.set a b).wf := by
  induction m with
  | nil => simp [Memory.set, Memory.wf]
  | cons d m ih =>
    obtain ⟨k, v⟩ := d
    have hd := List.pairwise_cons.mp h
    simp only [Memory.set]
    split
    · refine List.pairwise_cons.mpr ⟨fun c hc => ?_, h⟩
      rcases List.mem_cons.mp hc with hc | hc
      · simpa [hc]
      · have := hd.1 c hc
        simp only at this ⊢
        omega
    · split
      · rename_i hk
        subst hk
        exact List.pairwise_cons.mpr ⟨fun c hc => hd.1 c hc, hd.2⟩
      · refine List.pairwise_cons.mpr ⟨fun c hc => ?_, ih hd.2⟩
        rcases Memory.mem_set hc with hc | hc
        · simp only [hc]
          omega
        · exact hd.1 c hc

/-- A write inside the bound keeps every cell inside it. -/
theorem Memory.inside_set {m : Memory} {n a : Nat} (b : Byte) (hm : ∀ c ∈ m, c.1 < n) (ha : a < n) :
    ∀ c ∈ m.set a b, c.1 < n := by
  intro c hc
  rcases Memory.mem_set hc with rfl | hc
  · exact ha
  · exact hm c hc

/-! ### Several bytes written -/

@[simp] theorem Memory.setBytes_nil (m : Memory) (a : Nat) : m.setBytes a [] = m := rfl

theorem Memory.setBytes_cons (m : Memory) (a : Nat) (b : Byte) (bs : List Byte) :
    m.setBytes a (b :: bs) = (m.set a b).setBytes (a + 1) bs := rfl

theorem Memory.get_setBytes_outside (bs : List Byte) : ∀ (m : Memory) (a x : Nat),
    x < a ∨ a + bs.length ≤ x → (m.setBytes a bs).get x = m.get x := by
  induction bs with
  | nil => intros; rfl
  | cons b bs ih =>
    intro m a x hx
    simp only [List.length_cons] at hx
    rw [Memory.setBytes_cons, ih _ _ _ (by omega), Memory.get_set_of_ne _ _ (by omega)]

theorem Memory.get_setBytes_inside (bs : List Byte) : ∀ (m : Memory) (a k : Nat) (h : k < bs.length),
    (m.setBytes a bs).get (a + k) = some bs[k] := by
  induction bs with
  | nil => intro m a k h; simp at h
  | cons b bs ih =>
    intro m a k h
    rw [Memory.setBytes_cons]
    cases k with
    | zero => rw [Memory.get_setBytes_outside _ _ _ _ (by omega)]; simp
    | succ k =>
      have := ih (m.set a b) (a + 1) k (by simpa using h)
      rw [show a + (k + 1) = a + 1 + k by omega, this]
      simp

theorem Memory.holds_setBytes (m : Memory) (a : Nat) (bs : List Byte) :
    Holds (m.setBytes a bs) a bs := fun k h => Memory.get_setBytes_inside bs m a k h

theorem Memory.sameOutside_setBytes (m : Memory) (a : Nat) (bs : List Byte) :
    SameOutside m (m.setBytes a bs) a bs.length :=
  fun x hx => Memory.get_setBytes_outside bs m a x hx

theorem Memory.wf_setBytes (bs : List Byte) : ∀ (m : Memory) (a : Nat), m.wf → (m.setBytes a bs).wf := by
  induction bs with
  | nil => intro m a h; exact h
  | cons b bs ih => intro m a h; exact ih _ _ (Memory.wf_set a b h)

theorem Memory.inside_setBytes (bs : List Byte) : ∀ (m : Memory) (n a : Nat),
    (∀ c ∈ m, c.1 < n) → a + bs.length ≤ n → ∀ c ∈ m.setBytes a bs, c.1 < n := by
  induction bs with
  | nil => intro m n a hm _; exact hm
  | cons b bs ih =>
    intro m n a hm h
    simp only [List.length_cons] at h
    exact ih _ n _ (Memory.inside_set b hm (by omega)) (by omega)

/-! ### Reads -/

/-- A read changes nothing but the count of draws, and returns a written byte as it is. -/
theorem fetchByte_spec (a : Nat) (s : State) :
    ∃ n, (fetchByte a s).2 = { s with draws := n } ∧
      ∀ b, s.mem.get a = some b → fetchByte a s = (b, s) := by
  unfold fetchByte
  cases h : s.mem.get a with
  | none => exact ⟨s.draws + 1, rfl, by simp⟩
  | some b => exact ⟨s.draws, rfl, by simp⟩

theorem fetchBytes_spec (n : Nat) : ∀ (a : Nat) (s : State),
    ∃ k, (fetchBytes n a s).2 = { s with draws := k } ∧ (fetchBytes n a s).1.length = n := by
  induction n with
  | zero => intro a s; exact ⟨s.draws, rfl, rfl⟩
  | succ n ih =>
    intro a s
    obtain ⟨k, hk, -⟩ := fetchByte_spec a s
    obtain ⟨j, hj, hl⟩ := ih (a + 1) (fetchByte a s).2
    refine ⟨j, ?_, by simp only [fetchBytes, List.length_cons, hl]⟩
    rw [hk] at hj
    simpa only [fetchBytes, hk] using hj

theorem holds_cons {m : Memory} {a : Nat} {b : Byte} {bs : List Byte} :
    Holds m a (b :: bs) ↔ m.get a = some b ∧ Holds m (a + 1) bs := by
  constructor
  · intro h
    refine ⟨h 0 (by simp), fun k hk => ?_⟩
    have := h (k + 1) (by simpa using hk)
    rw [show a + 1 + k = a + (k + 1) by omega, this]
    rfl
  · rintro ⟨h0, h1⟩ k hk
    cases k with
    | zero => exact h0
    | succ k =>
      have := h1 k (by simpa using hk)
      rw [show a + (k + 1) = a + 1 + k by omega, this]
      rfl

/-- Bytes that were all written are read as they are, and nothing changes. -/
theorem fetchBytes_of_holds (bs : List Byte) : ∀ (a : Nat) (s : State), Holds s.mem a bs →
    fetchBytes bs.length a s = (bs, s) := by
  induction bs with
  | nil => intros; rfl
  | cons b bs ih =>
    intro a s h
    obtain ⟨-, -, hb⟩ := fetchByte_spec a s
    have h0 := hb b (holds_cons.mp h).1
    have hr := ih (a + 1) s (holds_cons.mp h).2
    simp only [List.length_cons, fetchBytes, h0, hr]

/-- The block's read of a byte of BUFMEM: nothing changes but the count of draws, and a written byte is
returned as it is. -/
theorem memRead_ok {a : Nat} {s : State} (h : a < s.cfg.bufSize) :
    ∃ b n, memRead a s = .ok (b, { s with draws := n }) ∧
      ∀ c, s.mem.get a = some c → b = c ∧ n = s.draws := by
  obtain ⟨n, hn, hb⟩ := fetchByte_spec a s
  refine ⟨(fetchByte a s).1, n, by simp [memRead, h, ← hn], fun c hc => ?_⟩
  have h1 := hb c hc
  refine ⟨by rw [h1], ?_⟩
  rw [h1] at hn
  exact (congrArg State.draws hn).symm

theorem memRead_written {a : Nat} {s : State} {b : Byte} (h : a < s.cfg.bufSize)
    (hb : s.mem.get a = some b) : memRead a s = .ok (b, s) := by
  obtain ⟨-, -, h1⟩ := fetchByte_spec a s
  simp [memRead, h, h1 b hb]

theorem memWrite_ok {a : Nat} {s : State} (b : Byte) (h : a < s.cfg.bufSize) :
    memWrite a b s = .ok { s with mem := s.mem.set a b } := by simp [memWrite, h]

/-- Reading `n` cells of BUFMEM: `n` bytes, each written one as it is, and nothing changes but the
count of draws. -/
theorem readCells_ok (n : Nat) : ∀ (a : Nat) (s : State), a + n ≤ s.cfg.bufSize →
    ∃ bs k, readCells n a s = .ok (bs, { s with draws := k }) ∧ bs.length = n ∧
      ∀ j b, j < n → s.mem.get (a + j) = some b → bs[j]? = some b := by
  induction n with
  | zero => intro a s _; exact ⟨[], s.draws, rfl, rfl, by simp⟩
  | succ n ih =>
    intro a s h
    obtain ⟨b, k, hr, hb⟩ := memRead_ok (a := a) (s := s) (by omega)
    obtain ⟨bs, k', hrs, hl, hbs⟩ := ih (a + 1) { s with draws := k } (by simp only; omega)
    refine ⟨b :: bs, k', by simp only [readCells, hr, hrs], by simp [hl], fun j c hj hc => ?_⟩
    cases j with
    | zero => simpa using (hb c (by simpa using hc)).1
    | succ j => simpa using hbs j c (by omega) (by rw [← hc]; congr 1; omega)

/-- Cells that were all written are read as they are, and nothing changes. -/
theorem readCells_of_holds (bs : List Byte) : ∀ (a : Nat) (s : State),
    a + bs.length ≤ s.cfg.bufSize → Holds s.mem a bs → readCells bs.length a s = .ok (bs, s) := by
  induction bs with
  | nil => intros; rfl
  | cons b bs ih =>
    intro a s hsz h
    simp only [List.length_cons] at hsz
    have h0 := memRead_written (a := a) (s := s) (b := b) (by omega) (holds_cons.mp h).1
    have hr := ih (a + 1) s (by omega) (holds_cons.mp h).2
    simp only [List.length_cons, readCells, h0, hr]

/-- Writing cells inside BUFMEM. -/
theorem writeCells_ok (bs : List Byte) : ∀ (a : Nat) (s : State), a + bs.length ≤ s.cfg.bufSize →
    writeCells bs a s = .ok { s with mem := s.mem.setBytes a bs } := by
  induction bs with
  | nil => intros; rfl
  | cons b bs ih =>
    intro a s h
    simp only [List.length_cons] at h
    simp only [writeCells, memWrite_ok b (show a < s.cfg.bufSize by omega)]
    rw [ih (a + 1) _ (by simp only; omega), Memory.setBytes_cons]

/-- The repacker's source read (R234): `rd(k)` inside BUFMEM. -/
theorem readSource_ok {k : Nat} {s : State} (h : s.srcL.toNat + s.lenL.toNat ≤ s.cfg.bufSize) :
    ∃ b n, readSource k s = .ok (b, { s with draws := n }) ∧ ∀ c, SourceIs s k c → b = c := by
  unfold readSource srcCell
  by_cases hk : k < s.lenL.toNat
  · obtain ⟨b, n, hr, hb⟩ := memRead_ok (a := s.srcL.toNat + k) (s := s) (by omega)
    refine ⟨b, n, by rw [if_pos hk, hr], fun c hc => ?_⟩
    rcases hc with ⟨-, hc⟩ | ⟨hc, -⟩
    · exact (hb c hc).1
    · omega
  · refine ⟨0, s.draws, by rw [if_neg hk], fun c hc => ?_⟩
    rcases hc with ⟨hc, -⟩ | ⟨-, rfl⟩
    · omega
    · rfl

end Sys2Proof.Machine
end

