-- ==== Sys2Proof/Laws/State.lean ====
section
/-! SUPPORT. One lemma per field per named update of State: what the update makes of that field. -/

namespace Sys2Proof.Machine

/-! ### recordError -/

@[simp] theorem recordError_cfg (c : ErrCause) (s : State) : (recordError c s).cfg = s.cfg := rfl
@[simp] theorem recordError_statusBusy (c : ErrCause) (s : State) : (recordError c s).statusBusy = s.statusBusy := rfl
@[simp] theorem recordError_statusDone (c : ErrCause) (s : State) : (recordError c s).statusDone = s.statusDone := rfl
@[simp] theorem recordError_lastOp (c : ErrCause) (s : State) : (recordError c s).lastOp = s.lastOp := rfl
@[simp] theorem recordError_err (c : ErrCause) (s : State) : (recordError c s).err = s.err ||| errBit c := rfl
@[simp] theorem recordError_doneIE (c : ErrCause) (s : State) : (recordError c s).doneIE = s.doneIE := rfl
@[simp] theorem recordError_errIE (c : ErrCause) (s : State) : (recordError c s).errIE = s.errIE := rfl
@[simp] theorem recordError_src (c : ErrCause) (s : State) : (recordError c s).src = s.src := rfl
@[simp] theorem recordError_dst (c : ErrCause) (s : State) : (recordError c s).dst = s.dst := rfl
@[simp] theorem recordError_len (c : ErrCause) (s : State) : (recordError c s).len = s.len := rfl
@[simp] theorem recordError_outlen (c : ErrCause) (s : State) : (recordError c s).outlen = s.outlen := rfl
@[simp] theorem recordError_progress (c : ErrCause) (s : State) : (recordError c s).progress = s.progress := rfl
@[simp] theorem recordError_ecur (c : ErrCause) (s : State) : (recordError c s).ecur = s.ecur := rfl
@[simp] theorem recordError_dcur (c : ErrCause) (s : State) : (recordError c s).dcur = s.dcur := rfl
@[simp] theorem recordError_eph (c : ErrCause) (s : State) : (recordError c s).eph = s.eph := rfl
@[simp] theorem recordError_dlh (c : ErrCause) (s : State) : (recordError c s).dlh = s.dlh := rfl
@[simp] theorem recordError_blk0 (c : ErrCause) (s : State) : (recordError c s).blk0 = s.blk0 := rfl
@[simp] theorem recordError_blk1 (c : ErrCause) (s : State) : (recordError c s).blk1 = s.blk1 := rfl
@[simp] theorem recordError_blk2 (c : ErrCause) (s : State) : (recordError c s).blk2 = s.blk2 := rfl
@[simp] theorem recordError_blk3 (c : ErrCause) (s : State) : (recordError c s).blk3 = s.blk3 := rfl
@[simp] theorem recordError_opL (c : ErrCause) (s : State) : (recordError c s).opL = s.opL := rfl
@[simp] theorem recordError_srcL (c : ErrCause) (s : State) : (recordError c s).srcL = s.srcL := rfl
@[simp] theorem recordError_dstL (c : ErrCause) (s : State) : (recordError c s).dstL = s.dstL := rfl
@[simp] theorem recordError_lenL (c : ErrCause) (s : State) : (recordError c s).lenL = s.lenL := rfl
@[simp] theorem recordError_mem (c : ErrCause) (s : State) : (recordError c s).mem = s.mem := rfl
@[simp] theorem recordError_draws (c : ErrCause) (s : State) : (recordError c s).draws = s.draws := rfl
@[simp] theorem recordError_inputs (c : ErrCause) (s : State) : (recordError c s).inputs = s.inputs := rfl
@[simp] theorem recordError_bus (c : ErrCause) (s : State) : (recordError c s).bus = s.bus := rfl

/-! ### abort -/

@[simp] theorem abort_cfg (c : ErrCause) (s : State) : (abort c s).cfg = s.cfg := rfl
@[simp] theorem abort_statusBusy (c : ErrCause) (s : State) : (abort c s).statusBusy = false := rfl
@[simp] theorem abort_statusDone (c : ErrCause) (s : State) : (abort c s).statusDone = true := rfl
@[simp] theorem abort_lastOp (c : ErrCause) (s : State) : (abort c s).lastOp = s.lastOp := rfl
@[simp] theorem abort_err (c : ErrCause) (s : State) : (abort c s).err = s.err ||| errBit c := rfl
@[simp] theorem abort_doneIE (c : ErrCause) (s : State) : (abort c s).doneIE = s.doneIE := rfl
@[simp] theorem abort_errIE (c : ErrCause) (s : State) : (abort c s).errIE = s.errIE := rfl
@[simp] theorem abort_src (c : ErrCause) (s : State) : (abort c s).src = s.src := rfl
@[simp] theorem abort_dst (c : ErrCause) (s : State) : (abort c s).dst = s.dst := rfl
@[simp] theorem abort_len (c : ErrCause) (s : State) : (abort c s).len = s.len := rfl
@[simp] theorem abort_outlen (c : ErrCause) (s : State) : (abort c s).outlen = s.outlen := rfl
@[simp] theorem abort_progress (c : ErrCause) (s : State) : (abort c s).progress = s.progress := rfl
@[simp] theorem abort_ecur (c : ErrCause) (s : State) : (abort c s).ecur = s.ecur := rfl
@[simp] theorem abort_dcur (c : ErrCause) (s : State) : (abort c s).dcur = s.dcur := rfl
@[simp] theorem abort_eph (c : ErrCause) (s : State) : (abort c s).eph = s.eph := rfl
@[simp] theorem abort_dlh (c : ErrCause) (s : State) : (abort c s).dlh = s.dlh := rfl
@[simp] theorem abort_blk0 (c : ErrCause) (s : State) : (abort c s).blk0 = s.blk0 := rfl
@[simp] theorem abort_blk1 (c : ErrCause) (s : State) : (abort c s).blk1 = s.blk1 := rfl
@[simp] theorem abort_blk2 (c : ErrCause) (s : State) : (abort c s).blk2 = s.blk2 := rfl
@[simp] theorem abort_blk3 (c : ErrCause) (s : State) : (abort c s).blk3 = s.blk3 := rfl
@[simp] theorem abort_opL (c : ErrCause) (s : State) : (abort c s).opL = s.opL := rfl
@[simp] theorem abort_srcL (c : ErrCause) (s : State) : (abort c s).srcL = s.srcL := rfl
@[simp] theorem abort_dstL (c : ErrCause) (s : State) : (abort c s).dstL = s.dstL := rfl
@[simp] theorem abort_lenL (c : ErrCause) (s : State) : (abort c s).lenL = s.lenL := rfl
@[simp] theorem abort_mem (c : ErrCause) (s : State) : (abort c s).mem = s.mem := rfl
@[simp] theorem abort_draws (c : ErrCause) (s : State) : (abort c s).draws = s.draws := rfl
@[simp] theorem abort_inputs (c : ErrCause) (s : State) : (abort c s).inputs = s.inputs := rfl
@[simp] theorem abort_bus (c : ErrCause) (s : State) : (abort c s).bus = s.bus := rfl

/-! ### complete -/

@[simp] theorem complete_cfg (s : State) : (complete s).cfg = s.cfg := rfl
@[simp] theorem complete_statusBusy (s : State) : (complete s).statusBusy = false := rfl
@[simp] theorem complete_statusDone (s : State) : (complete s).statusDone = true := rfl
@[simp] theorem complete_lastOp (s : State) : (complete s).lastOp = s.lastOp := rfl
@[simp] theorem complete_err (s : State) : (complete s).err = s.err := rfl
@[simp] theorem complete_doneIE (s : State) : (complete s).doneIE = s.doneIE := rfl
@[simp] theorem complete_errIE (s : State) : (complete s).errIE = s.errIE := rfl
@[simp] theorem complete_src (s : State) : (complete s).src = s.src := rfl
@[simp] theorem complete_dst (s : State) : (complete s).dst = s.dst := rfl
@[simp] theorem complete_len (s : State) : (complete s).len = s.len := rfl
@[simp] theorem complete_outlen (s : State) : (complete s).outlen = s.outlen := rfl
@[simp] theorem complete_progress (s : State) : (complete s).progress = s.progress := rfl
@[simp] theorem complete_ecur (s : State) : (complete s).ecur = s.ecur := rfl
@[simp] theorem complete_dcur (s : State) : (complete s).dcur = s.dcur := rfl
@[simp] theorem complete_eph (s : State) : (complete s).eph = s.eph := rfl
@[simp] theorem complete_dlh (s : State) : (complete s).dlh = s.dlh := rfl
@[simp] theorem complete_blk0 (s : State) : (complete s).blk0 = s.blk0 := rfl
@[simp] theorem complete_blk1 (s : State) : (complete s).blk1 = s.blk1 := rfl
@[simp] theorem complete_blk2 (s : State) : (complete s).blk2 = s.blk2 := rfl
@[simp] theorem complete_blk3 (s : State) : (complete s).blk3 = s.blk3 := rfl
@[simp] theorem complete_opL (s : State) : (complete s).opL = s.opL := rfl
@[simp] theorem complete_srcL (s : State) : (complete s).srcL = s.srcL := rfl
@[simp] theorem complete_dstL (s : State) : (complete s).dstL = s.dstL := rfl
@[simp] theorem complete_lenL (s : State) : (complete s).lenL = s.lenL := rfl
@[simp] theorem complete_mem (s : State) : (complete s).mem = s.mem := rfl
@[simp] theorem complete_draws (s : State) : (complete s).draws = s.draws := rfl
@[simp] theorem complete_inputs (s : State) : (complete s).inputs = s.inputs := rfl
@[simp] theorem complete_bus (s : State) : (complete s).bus = s.bus := rfl

/-! ### accept -/

@[simp] theorem accept_cfg (d : Instr) (n : Nat) (s : State) : (accept d n s).cfg = s.cfg := rfl
@[simp] theorem accept_statusBusy (d : Instr) (n : Nat) (s : State) : (accept d n s).statusBusy = true := rfl
@[simp] theorem accept_statusDone (d : Instr) (n : Nat) (s : State) : (accept d n s).statusDone = false := rfl
@[simp] theorem accept_lastOp (d : Instr) (n : Nat) (s : State) : (accept d n s).lastOp = d := rfl
@[simp] theorem accept_err (d : Instr) (n : Nat) (s : State) : (accept d n s).err = s.err := rfl
@[simp] theorem accept_doneIE (d : Instr) (n : Nat) (s : State) : (accept d n s).doneIE = s.doneIE := rfl
@[simp] theorem accept_errIE (d : Instr) (n : Nat) (s : State) : (accept d n s).errIE = s.errIE := rfl
@[simp] theorem accept_src (d : Instr) (n : Nat) (s : State) : (accept d n s).src = s.src := rfl
@[simp] theorem accept_dst (d : Instr) (n : Nat) (s : State) : (accept d n s).dst = s.dst := rfl
@[simp] theorem accept_len (d : Instr) (n : Nat) (s : State) : (accept d n s).len = s.len := rfl
@[simp] theorem accept_outlen (d : Instr) (n : Nat) (s : State) : (accept d n s).outlen = BitVec.ofNat 32 n := rfl
@[simp] theorem accept_progress (d : Instr) (n : Nat) (s : State) : (accept d n s).progress = 0 := rfl
@[simp] theorem accept_ecur (d : Instr) (n : Nat) (s : State) : (accept d n s).ecur = if d = .rpkEnc then 0 else s.ecur := rfl
@[simp] theorem accept_dcur (d : Instr) (n : Nat) (s : State) : (accept d n s).dcur = if d = .rpkDec then 0 else s.dcur := rfl
@[simp] theorem accept_eph (d : Instr) (n : Nat) (s : State) : (accept d n s).eph = if d = .rpkEnc then 0b00 else s.eph := rfl
@[simp] theorem accept_dlh (d : Instr) (n : Nat) (s : State) : (accept d n s).dlh = if d = .rpkDec then 0b11 else s.dlh := rfl
@[simp] theorem accept_blk0 (d : Instr) (n : Nat) (s : State) : (accept d n s).blk0 = s.blk0 := rfl
@[simp] theorem accept_blk1 (d : Instr) (n : Nat) (s : State) : (accept d n s).blk1 = s.blk1 := rfl
@[simp] theorem accept_blk2 (d : Instr) (n : Nat) (s : State) : (accept d n s).blk2 = s.blk2 := rfl
@[simp] theorem accept_blk3 (d : Instr) (n : Nat) (s : State) : (accept d n s).blk3 = s.blk3 := rfl
@[simp] theorem accept_opL (d : Instr) (n : Nat) (s : State) : (accept d n s).opL = d := rfl
@[simp] theorem accept_srcL (d : Instr) (n : Nat) (s : State) : (accept d n s).srcL = s.src := rfl
@[simp] theorem accept_dstL (d : Instr) (n : Nat) (s : State) : (accept d n s).dstL = s.dst := rfl
@[simp] theorem accept_lenL (d : Instr) (n : Nat) (s : State) : (accept d n s).lenL = s.len := rfl
@[simp] theorem accept_mem (d : Instr) (n : Nat) (s : State) : (accept d n s).mem = s.mem := rfl
@[simp] theorem accept_draws (d : Instr) (n : Nat) (s : State) : (accept d n s).draws = s.draws := rfl
@[simp] theorem accept_inputs (d : Instr) (n : Nat) (s : State) : (accept d n s).inputs = s.inputs := rfl
@[simp] theorem accept_bus (d : Instr) (n : Nat) (s : State) : (accept d n s).bus = s.bus := rfl

/-! ### reply -/

@[simp] theorem reply_cfg (r : BusReply) (s : State) : (reply r s).cfg = s.cfg := rfl
@[simp] theorem reply_statusBusy (r : BusReply) (s : State) : (reply r s).statusBusy = s.statusBusy := rfl
@[simp] theorem reply_statusDone (r : BusReply) (s : State) : (reply r s).statusDone = s.statusDone := rfl
@[simp] theorem reply_lastOp (r : BusReply) (s : State) : (reply r s).lastOp = s.lastOp := rfl
@[simp] theorem reply_err (r : BusReply) (s : State) : (reply r s).err = s.err := rfl
@[simp] theorem reply_doneIE (r : BusReply) (s : State) : (reply r s).doneIE = s.doneIE := rfl
@[simp] theorem reply_errIE (r : BusReply) (s : State) : (reply r s).errIE = s.errIE := rfl
@[simp] theorem reply_src (r : BusReply) (s : State) : (reply r s).src = s.src := rfl
@[simp] theorem reply_dst (r : BusReply) (s : State) : (reply r s).dst = s.dst := rfl
@[simp] theorem reply_len (r : BusReply) (s : State) : (reply r s).len = s.len := rfl
@[simp] theorem reply_outlen (r : BusReply) (s : State) : (reply r s).outlen = s.outlen := rfl
@[simp] theorem reply_progress (r : BusReply) (s : State) : (reply r s).progress = s.progress := rfl
@[simp] theorem reply_ecur (r : BusReply) (s : State) : (reply r s).ecur = s.ecur := rfl
@[simp] theorem reply_dcur (r : BusReply) (s : State) : (reply r s).dcur = s.dcur := rfl
@[simp] theorem reply_eph (r : BusReply) (s : State) : (reply r s).eph = s.eph := rfl
@[simp] theorem reply_dlh (r : BusReply) (s : State) : (reply r s).dlh = s.dlh := rfl
@[simp] theorem reply_blk0 (r : BusReply) (s : State) : (reply r s).blk0 = s.blk0 := rfl
@[simp] theorem reply_blk1 (r : BusReply) (s : State) : (reply r s).blk1 = s.blk1 := rfl
@[simp] theorem reply_blk2 (r : BusReply) (s : State) : (reply r s).blk2 = s.blk2 := rfl
@[simp] theorem reply_blk3 (r : BusReply) (s : State) : (reply r s).blk3 = s.blk3 := rfl
@[simp] theorem reply_opL (r : BusReply) (s : State) : (reply r s).opL = s.opL := rfl
@[simp] theorem reply_srcL (r : BusReply) (s : State) : (reply r s).srcL = s.srcL := rfl
@[simp] theorem reply_dstL (r : BusReply) (s : State) : (reply r s).dstL = s.dstL := rfl
@[simp] theorem reply_lenL (r : BusReply) (s : State) : (reply r s).lenL = s.lenL := rfl
@[simp] theorem reply_mem (r : BusReply) (s : State) : (reply r s).mem = s.mem := rfl
@[simp] theorem reply_draws (r : BusReply) (s : State) : (reply r s).draws = s.draws := rfl
@[simp] theorem reply_inputs (r : BusReply) (s : State) : (reply r s).inputs = s.inputs := rfl
@[simp] theorem reply_bus (r : BusReply) (s : State) : (reply r s).bus = r := rfl

/-! ### writeStatus -/

@[simp] theorem writeStatus_cfg (v : Word) (s : State) : (writeStatus v s).cfg = s.cfg := rfl
@[simp] theorem writeStatus_statusBusy (v : Word) (s : State) : (writeStatus v s).statusBusy = s.statusBusy := rfl
@[simp] theorem writeStatus_statusDone (v : Word) (s : State) : (writeStatus v s).statusDone = (s.statusDone && !v.getLsbD 1) := rfl
@[simp] theorem writeStatus_lastOp (v : Word) (s : State) : (writeStatus v s).lastOp = s.lastOp := rfl
@[simp] theorem writeStatus_err (v : Word) (s : State) : (writeStatus v s).err = s.err := rfl
@[simp] theorem writeStatus_doneIE (v : Word) (s : State) : (writeStatus v s).doneIE = s.doneIE := rfl
@[simp] theorem writeStatus_errIE (v : Word) (s : State) : (writeStatus v s).errIE = s.errIE := rfl
@[simp] theorem writeStatus_src (v : Word) (s : State) : (writeStatus v s).src = s.src := rfl
@[simp] theorem writeStatus_dst (v : Word) (s : State) : (writeStatus v s).dst = s.dst := rfl
@[simp] theorem writeStatus_len (v : Word) (s : State) : (writeStatus v s).len = s.len := rfl
@[simp] theorem writeStatus_outlen (v : Word) (s : State) : (writeStatus v s).outlen = s.outlen := rfl
@[simp] theorem writeStatus_progress (v : Word) (s : State) : (writeStatus v s).progress = s.progress := rfl
@[simp] theorem writeStatus_ecur (v : Word) (s : State) : (writeStatus v s).ecur = s.ecur := rfl
@[simp] theorem writeStatus_dcur (v : Word) (s : State) : (writeStatus v s).dcur = s.dcur := rfl
@[simp] theorem writeStatus_eph (v : Word) (s : State) : (writeStatus v s).eph = s.eph := rfl
@[simp] theorem writeStatus_dlh (v : Word) (s : State) : (writeStatus v s).dlh = s.dlh := rfl
@[simp] theorem writeStatus_blk0 (v : Word) (s : State) : (writeStatus v s).blk0 = s.blk0 := rfl
@[simp] theorem writeStatus_blk1 (v : Word) (s : State) : (writeStatus v s).blk1 = s.blk1 := rfl
@[simp] theorem writeStatus_blk2 (v : Word) (s : State) : (writeStatus v s).blk2 = s.blk2 := rfl
@[simp] theorem writeStatus_blk3 (v : Word) (s : State) : (writeStatus v s).blk3 = s.blk3 := rfl
@[simp] theorem writeStatus_opL (v : Word) (s : State) : (writeStatus v s).opL = s.opL := rfl
@[simp] theorem writeStatus_srcL (v : Word) (s : State) : (writeStatus v s).srcL = s.srcL := rfl
@[simp] theorem writeStatus_dstL (v : Word) (s : State) : (writeStatus v s).dstL = s.dstL := rfl
@[simp] theorem writeStatus_lenL (v : Word) (s : State) : (writeStatus v s).lenL = s.lenL := rfl
@[simp] theorem writeStatus_mem (v : Word) (s : State) : (writeStatus v s).mem = s.mem := rfl
@[simp] theorem writeStatus_draws (v : Word) (s : State) : (writeStatus v s).draws = s.draws := rfl
@[simp] theorem writeStatus_inputs (v : Word) (s : State) : (writeStatus v s).inputs = s.inputs := rfl
@[simp] theorem writeStatus_bus (v : Word) (s : State) : (writeStatus v s).bus = s.bus := rfl

/-! ### writeErr -/

@[simp] theorem writeErr_cfg (v : Word) (s : State) : (writeErr v s).cfg = s.cfg := rfl
@[simp] theorem writeErr_statusBusy (v : Word) (s : State) : (writeErr v s).statusBusy = s.statusBusy := rfl
@[simp] theorem writeErr_statusDone (v : Word) (s : State) : (writeErr v s).statusDone = s.statusDone := rfl
@[simp] theorem writeErr_lastOp (v : Word) (s : State) : (writeErr v s).lastOp = s.lastOp := rfl
@[simp] theorem writeErr_err (v : Word) (s : State) : (writeErr v s).err = s.err &&& ~~~(v.extractLsb' 0 6) := rfl
@[simp] theorem writeErr_doneIE (v : Word) (s : State) : (writeErr v s).doneIE = s.doneIE := rfl
@[simp] theorem writeErr_errIE (v : Word) (s : State) : (writeErr v s).errIE = s.errIE := rfl
@[simp] theorem writeErr_src (v : Word) (s : State) : (writeErr v s).src = s.src := rfl
@[simp] theorem writeErr_dst (v : Word) (s : State) : (writeErr v s).dst = s.dst := rfl
@[simp] theorem writeErr_len (v : Word) (s : State) : (writeErr v s).len = s.len := rfl
@[simp] theorem writeErr_outlen (v : Word) (s : State) : (writeErr v s).outlen = s.outlen := rfl
@[simp] theorem writeErr_progress (v : Word) (s : State) : (writeErr v s).progress = s.progress := rfl
@[simp] theorem writeErr_ecur (v : Word) (s : State) : (writeErr v s).ecur = s.ecur := rfl
@[simp] theorem writeErr_dcur (v : Word) (s : State) : (writeErr v s).dcur = s.dcur := rfl
@[simp] theorem writeErr_eph (v : Word) (s : State) : (writeErr v s).eph = s.eph := rfl
@[simp] theorem writeErr_dlh (v : Word) (s : State) : (writeErr v s).dlh = s.dlh := rfl
@[simp] theorem writeErr_blk0 (v : Word) (s : State) : (writeErr v s).blk0 = s.blk0 := rfl
@[simp] theorem writeErr_blk1 (v : Word) (s : State) : (writeErr v s).blk1 = s.blk1 := rfl
@[simp] theorem writeErr_blk2 (v : Word) (s : State) : (writeErr v s).blk2 = s.blk2 := rfl
@[simp] theorem writeErr_blk3 (v : Word) (s : State) : (writeErr v s).blk3 = s.blk3 := rfl
@[simp] theorem writeErr_opL (v : Word) (s : State) : (writeErr v s).opL = s.opL := rfl
@[simp] theorem writeErr_srcL (v : Word) (s : State) : (writeErr v s).srcL = s.srcL := rfl
@[simp] theorem writeErr_dstL (v : Word) (s : State) : (writeErr v s).dstL = s.dstL := rfl
@[simp] theorem writeErr_lenL (v : Word) (s : State) : (writeErr v s).lenL = s.lenL := rfl
@[simp] theorem writeErr_mem (v : Word) (s : State) : (writeErr v s).mem = s.mem := rfl
@[simp] theorem writeErr_draws (v : Word) (s : State) : (writeErr v s).draws = s.draws := rfl
@[simp] theorem writeErr_inputs (v : Word) (s : State) : (writeErr v s).inputs = s.inputs := rfl
@[simp] theorem writeErr_bus (v : Word) (s : State) : (writeErr v s).bus = s.bus := rfl

/-! ### writeInten -/

@[simp] theorem writeInten_cfg (v : Word) (s : State) : (writeInten v s).cfg = s.cfg := rfl
@[simp] theorem writeInten_statusBusy (v : Word) (s : State) : (writeInten v s).statusBusy = s.statusBusy := rfl
@[simp] theorem writeInten_statusDone (v : Word) (s : State) : (writeInten v s).statusDone = s.statusDone := rfl
@[simp] theorem writeInten_lastOp (v : Word) (s : State) : (writeInten v s).lastOp = s.lastOp := rfl
@[simp] theorem writeInten_err (v : Word) (s : State) : (writeInten v s).err = s.err := rfl
@[simp] theorem writeInten_doneIE (v : Word) (s : State) : (writeInten v s).doneIE = v.getLsbD 0 := rfl
@[simp] theorem writeInten_errIE (v : Word) (s : State) : (writeInten v s).errIE = v.getLsbD 1 := rfl
@[simp] theorem writeInten_src (v : Word) (s : State) : (writeInten v s).src = s.src := rfl
@[simp] theorem writeInten_dst (v : Word) (s : State) : (writeInten v s).dst = s.dst := rfl
@[simp] theorem writeInten_len (v : Word) (s : State) : (writeInten v s).len = s.len := rfl
@[simp] theorem writeInten_outlen (v : Word) (s : State) : (writeInten v s).outlen = s.outlen := rfl
@[simp] theorem writeInten_progress (v : Word) (s : State) : (writeInten v s).progress = s.progress := rfl
@[simp] theorem writeInten_ecur (v : Word) (s : State) : (writeInten v s).ecur = s.ecur := rfl
@[simp] theorem writeInten_dcur (v : Word) (s : State) : (writeInten v s).dcur = s.dcur := rfl
@[simp] theorem writeInten_eph (v : Word) (s : State) : (writeInten v s).eph = s.eph := rfl
@[simp] theorem writeInten_dlh (v : Word) (s : State) : (writeInten v s).dlh = s.dlh := rfl
@[simp] theorem writeInten_blk0 (v : Word) (s : State) : (writeInten v s).blk0 = s.blk0 := rfl
@[simp] theorem writeInten_blk1 (v : Word) (s : State) : (writeInten v s).blk1 = s.blk1 := rfl
@[simp] theorem writeInten_blk2 (v : Word) (s : State) : (writeInten v s).blk2 = s.blk2 := rfl
@[simp] theorem writeInten_blk3 (v : Word) (s : State) : (writeInten v s).blk3 = s.blk3 := rfl
@[simp] theorem writeInten_opL (v : Word) (s : State) : (writeInten v s).opL = s.opL := rfl
@[simp] theorem writeInten_srcL (v : Word) (s : State) : (writeInten v s).srcL = s.srcL := rfl
@[simp] theorem writeInten_dstL (v : Word) (s : State) : (writeInten v s).dstL = s.dstL := rfl
@[simp] theorem writeInten_lenL (v : Word) (s : State) : (writeInten v s).lenL = s.lenL := rfl
@[simp] theorem writeInten_mem (v : Word) (s : State) : (writeInten v s).mem = s.mem := rfl
@[simp] theorem writeInten_draws (v : Word) (s : State) : (writeInten v s).draws = s.draws := rfl
@[simp] theorem writeInten_inputs (v : Word) (s : State) : (writeInten v s).inputs = s.inputs := rfl
@[simp] theorem writeInten_bus (v : Word) (s : State) : (writeInten v s).bus = s.bus := rfl

/-! ### mapLanes -/

@[simp] theorem mapLanes_cfg (f : Byte → Byte) (s : State) : (mapLanes f s).cfg = s.cfg := rfl
@[simp] theorem mapLanes_statusBusy (f : Byte → Byte) (s : State) : (mapLanes f s).statusBusy = s.statusBusy := rfl
@[simp] theorem mapLanes_statusDone (f : Byte → Byte) (s : State) : (mapLanes f s).statusDone = s.statusDone := rfl
@[simp] theorem mapLanes_lastOp (f : Byte → Byte) (s : State) : (mapLanes f s).lastOp = s.lastOp := rfl
@[simp] theorem mapLanes_err (f : Byte → Byte) (s : State) : (mapLanes f s).err = s.err := rfl
@[simp] theorem mapLanes_doneIE (f : Byte → Byte) (s : State) : (mapLanes f s).doneIE = s.doneIE := rfl
@[simp] theorem mapLanes_errIE (f : Byte → Byte) (s : State) : (mapLanes f s).errIE = s.errIE := rfl
@[simp] theorem mapLanes_src (f : Byte → Byte) (s : State) : (mapLanes f s).src = s.src := rfl
@[simp] theorem mapLanes_dst (f : Byte → Byte) (s : State) : (mapLanes f s).dst = s.dst := rfl
@[simp] theorem mapLanes_len (f : Byte → Byte) (s : State) : (mapLanes f s).len = s.len := rfl
@[simp] theorem mapLanes_outlen (f : Byte → Byte) (s : State) : (mapLanes f s).outlen = s.outlen := rfl
@[simp] theorem mapLanes_progress (f : Byte → Byte) (s : State) : (mapLanes f s).progress = s.progress := rfl
@[simp] theorem mapLanes_ecur (f : Byte → Byte) (s : State) : (mapLanes f s).ecur = s.ecur := rfl
@[simp] theorem mapLanes_dcur (f : Byte → Byte) (s : State) : (mapLanes f s).dcur = s.dcur := rfl
@[simp] theorem mapLanes_eph (f : Byte → Byte) (s : State) : (mapLanes f s).eph = s.eph := rfl
@[simp] theorem mapLanes_dlh (f : Byte → Byte) (s : State) : (mapLanes f s).dlh = s.dlh := rfl
@[simp] theorem mapLanes_blk0 (f : Byte → Byte) (s : State) : (mapLanes f s).blk0 = mapWordLanes f s.blk0 := rfl
@[simp] theorem mapLanes_blk1 (f : Byte → Byte) (s : State) : (mapLanes f s).blk1 = mapWordLanes f s.blk1 := rfl
@[simp] theorem mapLanes_blk2 (f : Byte → Byte) (s : State) : (mapLanes f s).blk2 = mapWordLanes f s.blk2 := rfl
@[simp] theorem mapLanes_blk3 (f : Byte → Byte) (s : State) : (mapLanes f s).blk3 = mapWordLanes f s.blk3 := rfl
@[simp] theorem mapLanes_opL (f : Byte → Byte) (s : State) : (mapLanes f s).opL = s.opL := rfl
@[simp] theorem mapLanes_srcL (f : Byte → Byte) (s : State) : (mapLanes f s).srcL = s.srcL := rfl
@[simp] theorem mapLanes_dstL (f : Byte → Byte) (s : State) : (mapLanes f s).dstL = s.dstL := rfl
@[simp] theorem mapLanes_lenL (f : Byte → Byte) (s : State) : (mapLanes f s).lenL = s.lenL := rfl
@[simp] theorem mapLanes_mem (f : Byte → Byte) (s : State) : (mapLanes f s).mem = s.mem := rfl
@[simp] theorem mapLanes_draws (f : Byte → Byte) (s : State) : (mapLanes f s).draws = s.draws := rfl
@[simp] theorem mapLanes_inputs (f : Byte → Byte) (s : State) : (mapLanes f s).inputs = s.inputs := rfl
@[simp] theorem mapLanes_bus (f : Byte → Byte) (s : State) : (mapLanes f s).bus = s.bus := rfl

end Sys2Proof.Machine
end

