-- ==== Sys2Proof/Laws/Operations.lean ====
section
/-! SUPPORT. What each shared operation can do: the lifecycle of a command, its checks, the
micro-steps, the steps of the scheduler. -/

namespace Sys2Proof.Machine

/-! ### The lifecycle of a command -/

/-- The micro-step of each command. -/
def microOf : Instr → State → Result
  | .nop => microNop
  | .xlEnc => translateBlock te
  | .xlDec => translateBlock td
  | .xlEncB => translateLanes te
  | .xlDecB => translateLanes td
  | .rpkEnc => emitSymbol
  | .rpkDec => emitByte

/-- Every arm of `exec` is the lifecycle of its command with its micro-step. -/
theorem exec_eq_lifecycle (i : Instr) (s : State) : exec i s = lifecycle i (microOf i) s := by
  cases i <;> rfl

theorem lifecycle_idle {d : Instr} {micro : State → Result} {s : State} (h : s.statusBusy = false) :
    lifecycle d micro s = .next (present d s) := by simp [lifecycle, h]

theorem lifecycle_micro {d : Instr} {micro : State → Result} {s : State} (h : s.statusBusy = true)
    (hp : s.progress.toNat < s.outlen.toNat) : lifecycle d micro s = micro s := by
  simp [lifecycle, h, hp]

theorem lifecycle_finished {d : Instr} {micro : State → Result} {s : State}
    (h : s.statusBusy = true) (hp : ¬s.progress.toNat < s.outlen.toNat) :
    lifecycle d micro s = .next (complete s) := by simp [lifecycle, h, hp]

theorem rangeOK_iff {z a n b m : Nat} : rangeOK z a n b m = true ↔ a + n ≤ z ∧ b + m ≤ z := by
  simp [rangeOK]

theorem overlap_eq_false_iff {a n b m : Nat} : overlap a n b m = false ↔ RangesDisjoint a n b m := by
  simp only [overlap, RangesDisjoint, Bool.and_eq_false_iff, decide_eq_false_iff_not]
  omega

/-- Presenting a command (R151) rejects it with RANGE, rejects it with OVERLAP, or accepts it with
ranges that fit and are disjoint. -/
theorem present_cases (d : Instr) (s : State) :
    present d s = reject .range s ∨ present d s = reject .overlap s ∨
    (present d s = accept d (outLen d s.len.toNat) s ∧
      (usesBuffer d = true →
        s.src.toNat + s.len.toNat ≤ s.cfg.bufSize ∧
        s.dst.toNat + outLen d s.len.toNat ≤ s.cfg.bufSize ∧
        RangesDisjoint s.src.toNat s.len.toNat s.dst.toNat (outLen d s.len.toNat))) := by
  unfold present
  simp only
  split
  · exact .inl rfl
  · rename_i h1
    split
    · exact .inr (.inl rfl)
    · rename_i h2
      refine .inr (.inr ⟨rfl, fun hu => ?_⟩)
      simp only [hu, Bool.true_and, Bool.not_eq_true', Bool.not_eq_false,
        rangeOK_iff] at h1
      simp only [hu, Bool.true_and, Bool.not_eq_true, overlap_eq_false_iff] at h2
      exact ⟨h1.1, h1.2, h2⟩

theorem present_accepts {d : Instr} {s : State}
    (h : usesBuffer d = true →
      s.src.toNat + s.len.toNat ≤ s.cfg.bufSize ∧
      s.dst.toNat + outLen d s.len.toNat ≤ s.cfg.bufSize ∧
      RangesDisjoint s.src.toNat s.len.toNat s.dst.toNat (outLen d s.len.toNat)) :
    present d s = accept d (outLen d s.len.toNat) s := by
  unfold present
  cases hu : usesBuffer d
  · simp
  · obtain ⟨h1, h2, h3⟩ := h hu
    simp [rangeOK_iff.mpr ⟨h1, h2⟩, overlap_eq_false_iff.mpr h3]

/-! ### The Block Translator -/

/-- A lane of a word the lane function went over. -/
theorem mapWordLanes_lane (f : Byte → Byte) (w : Word) (k : Nat) (h : k < 4) :
    (mapWordLanes f w).extractLsb' (8 * k) 8 = f (w.extractLsb' (8 * k) 8) := by
  have hk : k = 0 ∨ k = 1 ∨ k = 2 ∨ k = 3 := by omega
  unfold mapWordLanes
  rcases hk with rfl | rfl | rfl | rfl <;>
  · apply BitVec.eq_of_getLsbD_eq
    intro i hi
    simp only [BitVec.getLsbD_extractLsb', BitVec.getLsbD_append, hi, decide_true, Bool.true_and]
    repeat' split
    all_goals first | omega | (congr 1; omega)

/-- All lanes after a lane function went over the block register (R189). -/
theorem mapLanes_lane (f : Byte → Byte) (s : State) (l : Fin 16) :
    (mapLanes f s).lane l = f (s.lane l) := by
  have h4 : l.val / 4 = 0 ∨ l.val / 4 = 1 ∨ l.val / 4 = 2 ∨ l.val / 4 = 3 := by omega
  have hm : l.val % 4 < 4 := by omega
  unfold State.lane
  rcases h4 with h | h | h | h <;> rw [h] <;> exact mapWordLanes_lane f _ _ hm

/-- One micro-step of a memory translation (R190): on ranges inside BUFMEM it never stops, and it
writes the lane function of the bytes it read. -/
theorem translateBlock_spec {f : Byte → Byte} {s : State} {base cnt : Nat}
    (hb : base = s.progress.toNat) (hc : cnt = min 16 (s.outlen.toNat - base))
    (hs : s.srcL.toNat + base + cnt ≤ s.cfg.bufSize)
    (hd : s.dstL.toNat + base + cnt ≤ s.cfg.bufSize) :
    ∃ (cells : List Byte) (n : Nat), cells.length = cnt ∧
      translateBlock f s = .next { s with
        mem := s.mem.setBytes (s.dstL.toNat + base) (cells.map f), draws := n,
        progress := BitVec.ofNat 32 (base + cnt) } ∧
      ∀ k b, k < cnt → s.mem.get (s.srcL.toNat + base + k) = some b → cells[k]? = some b := by
  subst hb
  obtain ⟨cells, n, hr, hl, hv⟩ := readCells_ok cnt (s.srcL.toNat + s.progress.toNat) s hs
  refine ⟨cells, n, hl, ?_, hv⟩
  have ht : ((cells ++ List.replicate (16 - cnt) 0x00).map f).take cnt = cells.map f := by
    rw [List.map_append, List.take_append_of_le_length (by simp [hl]), List.take_of_length_le (by simp [hl])]
  unfold translateBlock
  simp only [← hc, srcCell, dstCell, hr, ht]
  rw [writeCells_ok _ _ _ (by simpa [hl] using hd)]

/-! ### The Bit Repacker -/

/-- The cursor after a Symbol (R236): the byte index is held in phase 4 only, and the phase code steps
on by 1. -/
theorem encode_cursor_step (i : Nat) (p : BitVec 2) :
    nextByteIndex i p = (if p = 0b10 then i else i + 1) ∧ nextEph i p = p + 1 := by
  have hp : p = 0b00 ∨ p = 0b01 ∨ p = 0b10 ∨ p = 0b11 := by
    have : ∀ q : BitVec 2, q = 0b00 ∨ q = 0b01 ∨ q = 0b10 ∨ q = 0b11 := by decide
    exact this p
  rcases hp with rfl | rfl | rfl | rfl
  · have h2 : 8 * ((i : Int) + 1) - (8 * (i : Int) + 6) = 2 := by omega
    simp [nextByteIndex, nextEph, bitsFromLast, ephCode, h2]
  · have : ¬(8 * (i : Int) - 2 + 6) % 8 = 2 := by omega
    have h2 : 8 * ((i : Int) + 1) - (8 * (i : Int) - 2 + 6) = 4 := by omega
    simp [nextByteIndex, nextEph, bitsFromLast, ephCode, this, h2]
  · have : (8 * (i : Int) - 4 + 6) % 8 = 2 := by omega
    have h2 : 8 * (i : Int) - (8 * (i : Int) - 4 + 6) = -2 := by omega
    simp [nextByteIndex, nextEph, bitsFromLast, ephCode, this, h2]
  · have : ¬(8 * (i : Int) - -2 + 6) % 8 = 2 := by omega
    have h2 : 8 * ((i : Int) + 1) - (8 * (i : Int) - -2 + 6) = 0 := by omega
    simp [nextByteIndex, nextEph, bitsFromLast, ephCode]
    omega

/-- One micro-step of RPK.ENC (R239): with its ranges inside BUFMEM and a prior byte where the phase
needs one it never stops, and it writes one cell, the Symbol of the bytes it read. -/
theorem emitSymbol_spec {s : State} (hprior : usesPrior s.eph = true → 1 ≤ s.ecur.toNat)
    (hs : s.srcL.toNat + s.lenL.toNat ≤ s.cfg.bufSize)
    (hd : s.dstL.toNat + s.progress.toNat < s.cfg.bufSize) :
    ∃ (p c : Byte) (n : Nat),
      emitSymbol s = .next { s with
        mem := s.mem.set (s.dstL.toNat + s.progress.toNat) (symbolOf s.eph p c), draws := n,
        progress := s.progress + 1,
        ecur := BitVec.ofNat 32 (nextByteIndex s.ecur.toNat s.eph),
        eph := nextEph s.ecur.toNat s.eph } ∧
      (∀ b, usesPrior s.eph = true → SourceIs s (s.ecur.toNat - 1) b → p = b) ∧
      (∀ b, SourceIs s s.ecur.toNat b → c = b) := by
  have hp : ∃ (p : Byte) (n : Nat), readPriorIfUsed s = .ok (p, { s with draws := n }) ∧
      ∀ b, usesPrior s.eph = true → SourceIs s (s.ecur.toNat - 1) b → p = b := by
    unfold readPriorIfUsed
    by_cases hu : usesPrior s.eph = true
    · obtain ⟨k, hk⟩ : ∃ k, s.ecur.toNat = k + 1 := ⟨s.ecur.toNat - 1, by have := hprior hu; omega⟩
      obtain ⟨b, n, hr, hb⟩ := readSource_ok (k := k) hs
      refine ⟨b, n, by rw [if_pos hu, hk]; exact hr, fun c _ hc => hb c ?_⟩
      rw [hk] at hc
      exact hc
    · exact ⟨0, s.draws, by rw [if_neg hu], fun b h => absurd h hu⟩
  obtain ⟨p, n, hp, hpv⟩ := hp
  obtain ⟨c, n', hc, hcv⟩ := readSource_ok (k := s.ecur.toNat) (s := { s with draws := n }) hs
  refine ⟨p, c, n', ?_, hpv, fun b hb => hcv b hb⟩
  unfold emitSymbol
  simp only [hp, hc, dstCell, memWrite, hd, if_true]

/-- One micro-step of RPK.DEC in a legal phase (R246): with its cells inside BUFMEM it never stops, and
it writes one byte, the formula of the cells it read. -/
theorem emitByte_spec {s : State} (hl : s.dlh ≠ 0b00)
    (hs : s.srcL.toNat + s.dcur.toNat + 1 < s.cfg.bufSize)
    (hd : s.dstL.toNat + s.progress.toNat < s.cfg.bufSize) :
    ∃ (a b : Byte) (n : Nat),
      emitByte s = .next { s with
        mem := s.mem.set (s.dstL.toNat + s.progress.toNat) (byteOf (2 * s.dlh.toNat) a b),
        draws := n,
        progress := s.progress + 1,
        dcur := BitVec.ofNat 32 (if s.dlh = 0b01 then s.dcur.toNat + 2 else s.dcur.toNat + 1),
        dlh := if s.dlh = 0b01 then 0b11 else s.dlh - 1 } ∧
      (∀ x, s.mem.get (s.srcL.toNat + s.dcur.toNat) = some x → a = x) ∧
      (∀ x, s.mem.get (s.srcL.toNat + s.dcur.toNat + 1) = some x → b = x) := by
  obtain ⟨a, n, ha, hav⟩ := memRead_ok (a := s.srcL.toNat + s.dcur.toNat) (s := s) (by omega)
  obtain ⟨b, n', hb, hbv⟩ := memRead_ok (a := s.srcL.toNat + (s.dcur.toNat + 1))
    (s := { s with draws := n }) (by simp only; omega)
  refine ⟨a, b, n', ?_, fun x hx => (hav x hx).1, fun x hx => (hbv x (by simpa [Nat.add_assoc] using hx)).1⟩
  have hcase : ∀ q : BitVec 2, q ≠ 0b00 →
      BitVec.ofNat 2 ((2 * q.toNat - 2) / 2) = q - 1 ∧ (2 * q.toNat - 2 = 0 ↔ q = 0b01) := by decide
  obtain ⟨h1, h2⟩ := hcase s.dlh hl
  unfold emitByte
  simp only [hl, if_false, srcCell, dstCell, ha, hb, memWrite, hd, if_true, h1, h2]

/-! ### What a micro-step can change -/

theorem memRead_frame {a : Nat} {s t : State} {b : Byte} (h : memRead a s = .ok (b, t)) :
    ∃ n, t = { s with draws := n } := by
  unfold memRead at h
  split at h
  · obtain ⟨n, hn, -⟩ := fetchByte_spec a s
    injection h with h
    exact ⟨n, by rw [← hn, h]⟩
  · cases h

theorem memWrite_frame {a : Nat} {s t : State} {b : Byte} (h : memWrite a b s = .ok t) :
    a < s.cfg.bufSize ∧ t = { s with mem := s.mem.set a b } := by
  unfold memWrite at h
  split at h
  · cases h
    exact ⟨by assumption, rfl⟩
  · cases h

theorem readCells_frame (n : Nat) : ∀ {a : Nat} {s t : State} {bs : List Byte},
    readCells n a s = .ok (bs, t) → ∃ k, t = { s with draws := k } := by
  induction n with
  | zero => intro a s t bs h; cases h; exact ⟨s.draws, rfl⟩
  | succ n ih =>
    intro a s t bs h
    simp only [readCells] at h
    split at h
    · cases h
    · rename_i hr
      split at h
      · cases h
      · rename_i hrs
        obtain ⟨k, rfl⟩ := memRead_frame hr
        obtain ⟨j, rfl⟩ := ih hrs
        cases h
        exact ⟨j, rfl⟩

theorem writeCells_frame (bs : List Byte) : ∀ {a : Nat} {s t : State},
    writeCells bs a s = .ok t → ∃ m, t = { s with mem := m } := by
  induction bs with
  | nil => intro a s t h; cases h; exact ⟨s.mem, rfl⟩
  | cons b bs ih =>
    intro a s t h
    simp only [writeCells] at h
    split at h
    · cases h
    · rename_i hw
      obtain ⟨-, rfl⟩ := memWrite_frame hw
      obtain ⟨m, rfl⟩ := ih h
      exact ⟨m, rfl⟩

theorem readSource_frame {k : Nat} {s t : State} {b : Byte} (h : readSource k s = .ok (b, t)) :
    ∃ n, t = { s with draws := n } := by
  unfold readSource at h
  split at h
  · exact memRead_frame h
  · cases h
    exact ⟨s.draws, rfl⟩

theorem readPriorIfUsed_frame {s t : State} {b : Byte} (h : readPriorIfUsed s = .ok (b, t)) :
    ∃ n, t = { s with draws := n } := by
  unfold readPriorIfUsed readPrior at h
  split at h
  · split at h
    · cases h
    · exact readSource_frame h
  · cases h
    exact ⟨s.draws, rfl⟩

/-- A micro-step that answers a next state changed at most BUFMEM, the lanes, PROGRESS, the cursors and
the count of draws, or it was NOP's completion or RPK.DEC's abort. -/
theorem microOf_frame {i : Instr} {s t : State} (h : microOf i s = .next t) :
    (∃ m n p e ph d l w0 w1 w2 w3, t = { s with
      mem := m, draws := n, progress := p, ecur := e, eph := ph, dcur := d, dlh := l,
      blk0 := w0, blk1 := w1, blk2 := w2, blk3 := w3 }) ∨
    t = complete s ∨ (t = abort .phase s ∧ s.dlh = 0b00) := by
  have hx : ∀ f, translateBlock f s = .next t →
      ∃ m n p, t = { s with mem := m, draws := n, progress := p } := by
    intro f h
    simp only [translateBlock] at h
    split at h
    · cases h
    · rename_i hr
      split at h
      · cases h
      · rename_i hw
        obtain ⟨n, rfl⟩ := readCells_frame _ hr
        obtain ⟨m, rfl⟩ := writeCells_frame _ hw
        cases h
        exact ⟨_, _, _, rfl⟩
  cases i with
  | nop => cases h; exact .inr (.inl rfl)
  | xlEnc => obtain ⟨m, n, p, rfl⟩ := hx _ h; exact .inl ⟨_, _, _, _, _, _, _, _, _, _, _, rfl⟩
  | xlDec => obtain ⟨m, n, p, rfl⟩ := hx _ h; exact .inl ⟨_, _, _, _, _, _, _, _, _, _, _, rfl⟩
  | xlEncB => cases h; exact .inl ⟨_, _, _, _, _, _, _, _, _, _, _, rfl⟩
  | xlDecB => cases h; exact .inl ⟨_, _, _, _, _, _, _, _, _, _, _, rfl⟩
  | rpkEnc =>
    simp only [microOf, emitSymbol] at h
    split at h
    · cases h
    · rename_i h1
      split at h
      · cases h
      · rename_i h2
        split at h
        · cases h
        · rename_i h3
          obtain ⟨n, rfl⟩ := readPriorIfUsed_frame h1
          obtain ⟨n', rfl⟩ := readSource_frame h2
          obtain ⟨-, rfl⟩ := memWrite_frame h3
          cases h
          exact .inl ⟨_, _, _, _, _, _, _, _, _, _, _, rfl⟩
  | rpkDec =>
    simp only [microOf, emitByte] at h
    split at h
    · cases h
      exact .inr (.inr ⟨rfl, by assumption⟩)
    · split at h
      · cases h
      · rename_i h1
        split at h
        · cases h
        · rename_i h2
          split at h
          · cases h
          · rename_i h3
            obtain ⟨n, rfl⟩ := memRead_frame h1
            obtain ⟨n', rfl⟩ := memRead_frame h2
            obtain ⟨-, rfl⟩ := memWrite_frame h3
            cases h
            exact .inl ⟨_, _, _, _, _, _, _, _, _, _, _, rfl⟩

/-! ### Steps -/

theorem step_access {s : State} {a : HostAccess} {rest : List Input}
    (h : s.inputs = .access a :: rest) : step s = hostAccess a { s with inputs := rest } := by
  simp [step, nextStep, h]

/-- Bit 0 of STATUS is BUSY (R37). -/
theorem statusWord_bit0 (s : State) : (statusWord s).getLsbD 0 = s.statusBusy := by
  simp only [statusWord, BitVec.getLsbD_append]; simp

/-- A poll of WAIT is a read of STATUS; the loop goes on while it shows BUSY = 1 (R127). -/
theorem step_wait {s : State} {turns : List Nat} {rest : List Input}
    (h : s.inputs = .wait turns :: rest) :
    step s = .next { s with
      inputs := if s.statusBusy then
          List.replicate (turns.headD 1) .blockTurn ++ .wait turns.tail :: rest
        else rest,
      bus := .data (statusWord s) } := by
  have hb : (readRegister statusOffset s).getLsbD 0 = s.statusBusy := statusWord_bit0 s
  simp only [step, nextStep, h, hostWait, afterPoll, hb]
  simp only [hostAccess, statusOffset, regAccessLegal, isBlkOffset, reply]
  simp
  rfl

theorem step_wait_idle {s : State} {turns : List Nat} {rest : List Input}
    (h : s.inputs = .wait turns :: rest) (hb : s.statusBusy = false) :
    step s = .next { s with inputs := rest, bus := .data (statusWord s) } := by
  simp [step_wait h, hb]

theorem step_wait_busy {s : State} {turns : List Nat} {rest : List Input}
    (h : s.inputs = .wait turns :: rest) (hb : s.statusBusy = true) :
    step s = .next { s with
      inputs := List.replicate (turns.headD 1) .blockTurn ++ .wait turns.tail :: rest,
      bus := .data (statusWord s) } := by
  simp [step_wait h, hb]

theorem step_blockTurn_busy {s : State} {rest : List Input} (h : s.inputs = .blockTurn :: rest)
    (hb : s.statusBusy = true) : step s = exec s.opL { s with inputs := rest } := by
  simp [step, nextStep, h, blockStep, hb]

theorem step_blockTurn_idle {s : State} {rest : List Input} (h : s.inputs = .blockTurn :: rest)
    (hb : s.statusBusy = false) : step s = .next { s with inputs := rest } := by
  simp [step, nextStep, h, blockStep, hb]

theorem step_no_input_busy {s : State} (h : s.inputs = []) (hb : s.statusBusy = true) :
    step s = exec s.opL s := by simp [step, nextStep, h, blockStep, hb]

theorem step_no_input_idle {s : State} (h : s.inputs = []) (hb : s.statusBusy = false) :
    step s = .next s := by simp [step, nextStep, h, blockStep, hb]

/-- Every step is one of: nothing, the block's step, a host access, a poll of WAIT, or reset. -/
theorem step_cases (s : State) :
    (∃ l, step s = .next { s with inputs := l }) ∨
    (s.statusBusy = true ∧ ∃ l, step s = exec s.opL { s with inputs := l }) ∨
    (∃ a l, s.inputs = .access a :: l ∧ step s = hostAccess a { s with inputs := l }) ∨
    (∃ l r, step s = .next { s with inputs := l, bus := r }) ∨
    (∃ l, s.inputs = .reset :: l ∧ step s = .next (resetBlock { s with inputs := l })) := by
  have hb : s.statusBusy = true ∨ s.statusBusy = false := by cases s.statusBusy <;> simp
  cases hi : s.inputs with
  | nil =>
    rcases hb with hb | hb
    · exact .inr (.inl ⟨hb, [], by rw [step_no_input_busy hi hb, ← hi]⟩)
    · exact .inl ⟨[], by rw [step_no_input_idle hi hb, ← hi]⟩
  | cons i l =>
    cases i with
    | access a => exact .inr (.inr (.inl ⟨a, l, rfl, step_access hi⟩))
    | wait turns => exact .inr (.inr (.inr (.inl ⟨_, _, step_wait hi⟩)))
    | waitIrq =>
      by_cases hq : s.irq = true
      · exact .inl ⟨l, by simp [step, nextStep, hi, hostWaitIrq, hq]⟩
      · have hw : step s = blockStep s := by simp [step, nextStep, hi, hostWaitIrq, hq]
        rcases hb with hb | hb
        · exact .inr (.inl ⟨hb, s.inputs, by rw [hw, blockStep, if_pos hb]⟩)
        · exact .inl ⟨s.inputs, by rw [hw, blockStep, if_neg (by simp [hb])]⟩
    | blockTurn =>
      rcases hb with hb | hb
      · exact .inr (.inl ⟨hb, l, step_blockTurn_busy hi hb⟩)
      · exact .inl ⟨l, step_blockTurn_idle hi hb⟩
    | reset => exact .inr (.inr (.inr (.inr ⟨l, rfl, by simp [step, nextStep, hi]⟩)))

/-! ### Runs -/

@[simp] theorem steps_zero (s : State) : steps 0 s = .next s := rfl

theorem steps_succ {s t : State} (k : Nat) (h : step s = .next t) : steps (k + 1) s = steps k t := by
  simp [steps, h]

theorem steps_add {t : State} (j : Nat) : ∀ (i : Nat) (s : State), steps i s = .next t →
    steps (i + j) s = steps j t := by
  intro i
  induction i with
  | zero => intro s h; simp [steps] at h; simp [h]
  | succ i ih =>
    intro s h
    rw [show i + 1 + j = (i + j) + 1 by omega]
    simp only [steps] at h ⊢
    cases hs : step s with
    | next u => rw [hs] at h; exact ih u h
    | fault f => rw [hs] at h; cases h
    | refused r => rw [hs] at h; cases h

end Sys2Proof.Machine
end

