-- ==== Sys2Proof/Laws/Bus.lean ====
section
/-! SUPPORT. The host's side of the block: what the composed registers read as, byte order, legality,
and what one host access can do. -/

namespace Sys2Proof.Machine

/-! ### Composed registers -/

/-- STATUS as a number (R37–R40). -/
theorem statusWord_toNat (s : State) :
    (statusWord s).toNat = s.statusBusy.toNat + 2 * s.statusDone.toNat + 4 * s.statusErr.toNat +
      16 * (opcode s.lastOp).toNat := by
  have h : ∀ (op : BitVec 4) (e d b : Bool),
      (0#24 ++ op ++ 0#1 ++ BitVec.ofBool e ++ BitVec.ofBool d ++ BitVec.ofBool b).toNat =
        b.toNat + 2 * d.toNat + 4 * e.toNat + 16 * op.toNat := by decide
  exact h _ _ _ _

/-- ERR as a number (R41). -/
theorem errWord_toNat (s : State) : (errWord s).toNat = s.err.toNat := by
  have h : ∀ e : BitVec 6, (0#26 ++ e).toNat = e.toNat := by decide
  exact h _

/-- INTEN as a number (R42). -/
theorem intenWord_toNat (s : State) :
    (intenWord s).toNat = s.doneIE.toNat + 2 * s.errIE.toNat := by
  have h : ∀ e d : Bool, (0#30 ++ BitVec.ofBool e ++ BitVec.ofBool d).toNat = d.toNat + 2 * e.toNat := by
    decide
  exact h _ _

/-- PHASE as a number (R50, R51). -/
theorem phaseWord_toNat (s : State) : (phaseWord s).toNat = s.eph.toNat + 16 * s.dlh.toNat := by
  have h : ∀ d e : BitVec 2, (0#26 ++ d ++ 0#2 ++ e).toNat = e.toNat + 16 * d.toNat := by decide
  exact h _ _

/-! ### Byte order -/

theorem wordOfBytes_cons_getLsbD (b : Byte) (bs : List Byte) (j : Nat) (hj : j < 32) :
    (wordOfBytes (b :: bs)).getLsbD j =
      if j < 8 then b.getLsbD j else (wordOfBytes bs).getLsbD (j - 8) := by
  simp only [wordOfBytes, BitVec.getLsbD_or, BitVec.getLsbD_shiftLeft, BitVec.getLsbD_setWidth, hj,
    decide_true, Bool.true_and]
  split
  · rename_i h; simp [h]
  · rename_i h
    rw [BitVec.getLsbD_of_ge b j (by omega)]
    simp [h]

/-- The little-endian word of at most four bytes: byte `k` is its bits `8k` to `8k + 7` (R85). -/
theorem wordOfBytes_byte (bs : List Byte) : ∀ k (h : k < bs.length), k < 4 →
    (wordOfBytes bs).extractLsb' (8 * k) 8 = bs[k] := by
  induction bs with
  | nil => intro k h; simp at h
  | cons b bs ih =>
    intro k h hk
    apply BitVec.eq_of_getLsbD_eq
    intro i hi
    rw [BitVec.getLsbD_extractLsb', wordOfBytes_cons_getLsbD b bs _ (by omega)]
    cases k with
    | zero => simp [hi]
    | succ k =>
      have := congrArg (fun v => BitVec.getLsbD v i) (ih k (by simpa using h) (by omega))
      simp only [BitVec.getLsbD_extractLsb', hi, decide_true, Bool.true_and] at this
      simp only [hi, decide_true, Bool.true_and, show ¬ 8 * (k + 1) + i < 8 by omega, if_false,
        List.getElem_cons_succ, ← this]
      congr 1
      omega

/-- The little-endian word of `n` bytes fits `n` bytes (R85). -/
theorem wordOfBytes_lt (bs : List Byte) (h : bs.length ≤ 4) :
    (wordOfBytes bs).toNat < 256 ^ bs.length := by
  induction bs with
  | nil => simp [wordOfBytes]
  | cons b bs ih =>
    have ih := ih (by simp at h; omega)
    have hb : b.toNat < 2 ^ (8 * (bs.length + 1)) :=
      lt_of_lt_of_le b.isLt (Nat.pow_le_pow_right (by decide) (by omega))
    have hw : (wordOfBytes bs).toNat * 2 ^ 8 < 2 ^ (8 * (bs.length + 1)) := by
      have e : 2 ^ (8 * (bs.length + 1)) = 256 ^ bs.length * 2 ^ 8 := by
        rw [Nat.mul_add, Nat.pow_add, Nat.pow_mul]
      rw [e]
      exact Nat.mul_lt_mul_of_pos_right ih (by decide)
    have e : (256 : Nat) ^ (b :: bs).length = 2 ^ (8 * (bs.length + 1)) := by
      rw [Nat.pow_mul]
      rfl
    rw [e]
    simp only [wordOfBytes, BitVec.toNat_or, BitVec.toNat_shiftLeft, BitVec.toNat_setWidth,
      Nat.shiftLeft_eq]
    exact Nat.or_lt_two_pow (lt_of_le_of_lt (Nat.mod_le _ _) hw) (lt_of_le_of_lt (Nat.mod_le _ _) hb)

/-- The bytes an `n`-byte write stores (R85). -/
theorem bytesOfWord_getElem (n : Nat) (v : Word) (k : Nat) (h : k < (bytesOfWord n v).length) :
    (bytesOfWord n v)[k] = v.extractLsb' (8 * k) 8 := by
  apply BitVec.eq_of_getLsbD_eq
  intro i hi
  simp [bytesOfWord, hi]

@[simp] theorem bytesOfWord_length (n : Nat) (v : Word) : (bytesOfWord n v).length = n := by
  simp [bytesOfWord]

/-- Each byte that was written is read as it is, whatever the others are. -/
theorem fetchBytes_written (n : Nat) : ∀ (a : Nat) (s : State) (k : Nat) (b : Byte), k < n →
    s.mem.get (a + k) = some b → (fetchBytes n a s).1[k]? = some b := by
  induction n with
  | zero => intro a s k b h; omega
  | succ n ih =>
    intro a s k b hk h
    obtain ⟨m, hm, hb⟩ := fetchByte_spec a s
    cases k with
    | zero => simp [fetchBytes, hb b (by simpa using h)]
    | succ k =>
      simp only [fetchBytes, List.getElem?_cons_succ]
      apply ih _ _ k b (by omega)
      rw [hm, ← h]
      simp only
      congr 1
      omega

/-! ### Legality -/

theorem regAccessLegal_iff {off n : Nat} :
    regAccessLegal off n = true ↔ n = 4 ∧ off % 4 = 0 ∧ off < 0x100 := by
  simp [regAccessLegal, and_assoc]

theorem bufAccessLegal_iff {c : Config} {off n : Nat} :
    bufAccessLegal c off n = true ↔ (n = 1 ∨ n = 2 ∨ n = 4) ∧ off % n = 0 ∧ off + n ≤ c.bufSize := by
  simp [bufAccessLegal, and_assoc, or_assoc]

theorem isBlkOffset_iff {off : Nat} :
    isBlkOffset off = true ↔ off = 0x040 ∨ off = 0x044 ∨ off = 0x048 ∨ off = 0x04C := by
  simp [isBlkOffset, or_assoc]

/-! ### One host access -/

/-- What a register write other than CMD can change. -/
theorem writeRegister_spec (off : Nat) (v : Word) (s : State) :
    ∃ (d p q : Bool) (e : BitVec 6) (x y z w0 w1 w2 w3 : Word),
      writeRegister off v s = { s with
        statusDone := d, err := e, doneIE := p, errIE := q, src := x, dst := y, len := z,
        blk0 := w0, blk1 := w1, blk2 := w2, blk3 := w3 } ∧
      (s.statusDone = false → d = false) ∧
      (∀ k, s.err.getLsbD k = false → e.getLsbD k = false) ∧
      (isBlkOffset off = false → w0 = s.blk0 ∧ w1 = s.blk1 ∧ w2 = s.blk2 ∧ w3 = s.blk3) := by
  unfold writeRegister
  split
  · exact ⟨_, _, _, _, _, _, _, _, _, _, _, rfl, by intro h; simp [h], by simp, by simp⟩
  · refine ⟨_, _, _, _, _, _, _, _, _, _, _, rfl, by simp, ?_, by simp⟩
    intro k h
    simp only [BitVec.getLsbD_and, h, Bool.false_and]
  all_goals exact ⟨_, _, _, _, _, _, _, _, _, _, _, rfl, by simp, by simp, by simp [isBlkOffset]⟩

/-- A host access answers a bus error, a reply with nothing changed but the count of draws, a BUSYWR
record, a write of BUFMEM inside BUF_SIZE, a register write, or it is the CMD write. -/
theorem hostAccess_cases (a : HostAccess) (s : State) :
    (∃ r n, hostAccess a s = .next { s with bus := r, draws := n }) ∨
    (s.statusBusy = true ∧
      hostAccess a s = .next (recordError .busyWr { s with bus := .written })) ∨
    (∃ off bs, s.statusBusy = false ∧ off + bs.length ≤ s.cfg.bufSize ∧
      hostAccess a s = .next { s with bus := .written, mem := s.mem.setBytes off bs }) ∨
    (∃ off v, (s.statusBusy && isBlkOffset off) = false ∧
      hostAccess a s = .next (writeRegister off v { s with bus := .written })) ∨
    (∃ w, hostAccess a s = writeCommand w { s with bus := .written }) := by
  match a with
  | .read .reg off n =>
    simp only [hostAccess]
    split
    · exact .inl ⟨_, _, rfl⟩
    · split
      · exact .inl ⟨_, _, rfl⟩
      · exact .inl ⟨_, _, rfl⟩
  | .write .reg off n v =>
    simp only [hostAccess]
    split
    · exact .inl ⟨_, _, rfl⟩
    · split
      · exact .inr (.inr (.inr (.inr ⟨v, rfl⟩)))
      · split
        · rename_i h
          simp only [Bool.and_eq_true] at h
          exact .inr (.inl ⟨h.1, rfl⟩)
        · rename_i h
          exact .inr (.inr (.inr (.inl ⟨off, v, by simpa using h, rfl⟩)))
  | .read .buf off n =>
    simp only [hostAccess]
    split
    · exact .inl ⟨_, _, rfl⟩
    · split
      · exact .inl ⟨_, _, rfl⟩
      · obtain ⟨k, hk, -⟩ := fetchBytes_spec n off s
        exact .inl ⟨.data (wordOfBytes (fetchBytes n off s).1), k, by simp only [replyBytes, reply, hk]⟩
  | .write .buf off n v =>
    simp only [hostAccess]
    split
    · exact .inl ⟨_, _, rfl⟩
    · rename_i hl
      split
      · exact .inr (.inl ⟨by assumption, rfl⟩)
      · rename_i hb
        have := (bufAccessLegal_iff.mp (by simpa using hl)).2.2
        exact .inr (.inr (.inl ⟨off, bytesOfWord n v, by simpa using hb, by simpa using this, rfl⟩))

/-- The CMD write: a rejection while busy or of an illegal word, or the decoded command. -/
theorem writeCommand_cases (w : Word) (s : State) :
    (s.statusBusy = true ∧ writeCommand w s = .next (reject .busyCmd s)) ∨
    (s.statusBusy = false ∧ writeCommand w s = .next (reject .illCmd s)) ∨
    (s.statusBusy = false ∧ ∃ i, decode w = .ok i ∧ writeCommand w s = exec i s) := by
  unfold writeCommand
  cases hb : s.statusBusy
  · cases hd : decode w with
    | error e => simp
    | ok i => simp
  · simp

end Sys2Proof.Machine
end

