-- ==== Sys2Proof/Laws/Invariant.lean ====
section
/-! SUPPORT. Pieces of the invariant: what a change of the host's side leaves of it, and what
presenting a command to an idle block makes of it. -/

namespace Sys2Proof.Machine

/-- A counter below the top of the word counts on. -/
theorem toNat_add_one {w : Word} (h : w.toNat + 1 < 2 ^ 32) : (w + 1).toNat = w.toNat + 1 := by
  simp [BitVec.toNat_add]; omega

/-- The bounds that well-formed parameters give BUF_SIZE (R8). -/
theorem bounds_of_cfg_wf {c : Config} (h : c.wf = true) : 16 ≤ c.bufSize ∧ c.bufSize ≤ 2 ^ 31 := by
  simpa [Config.wf] using h

/-- Recording any cause but PHASE leaves ERR.PHASE as it is. -/
theorem phaseBit_errBit {e : BitVec 6} {c : ErrCause} (h : e.getLsbD 4 = false) (hc : c ≠ .phase) :
    (e ||| errBit c).getLsbD 4 = false := by
  cases c <;> simp_all [errBit]

/-- The invariant says nothing of the host's own registers, the lanes, the draws, the pending inputs
and the bus reply, and of ERR and DONE only what the two premises keep. -/
theorem State.Inv.with_host_fields {s : State} (hi : s.Inv) (e : BitVec 6) (d p q : Bool)
    (x y z w0 w1 w2 w3 : Word) (n : Nat) (l : List Input) (r : BusReply)
    (he : e.getLsbD 4 = false) (hd : s.statusBusy = true → d = false) :
    State.Inv { s with
      err := e, statusDone := d, doneIE := p, errIE := q, src := x, dst := y, len := z, draws := n,
      inputs := l, bus := r, blk0 := w0, blk1 := w1, blk2 := w2, blk3 := w3 } := by
  refine ⟨hi.cfg_wf, hi.mem_wf, hi.mem_inside, hi.last_op, hi.dlh_legal, he, hi.progress_le,
    hi.idle_finished, hd, fun hb => ?_⟩
  obtain ⟨h1, h2, h3, h4, h5, h6, h7⟩ := hi.operation hb
  exact ⟨h1, h2, h3, h4, h5, h6, h7⟩

/-- Presenting a command keeps the invariant: a rejection changes ERR alone, and acceptance starts an
operation that meets its part. -/
theorem State.Inv.present {s : State} (hi : s.Inv) (i : Instr) :
    (Sys2Proof.Machine.present i s).Inv := by
  have hc := bounds_of_cfg_wf hi.cfg_wf
  rcases present_cases i s with h | h | ⟨h, hr⟩ <;> rw [h]
  · exact hi.with_host_fields _ _ _ _ _ _ _ _ _ _ _ _ _ _
      (phaseBit_errBit (c := .range) hi.no_phase_error (by simp)) hi.busy_not_done
  · exact hi.with_host_fields _ _ _ _ _ _ _ _ _ _ _ _ _ _
      (phaseBit_errBit (c := .overlap) hi.no_phase_error (by simp)) hi.busy_not_done
  · have hout : outLen i s.len.toNat < 2 ^ 32 := by
      cases hu : usesBuffer i
      · cases i <;> simp [usesBuffer] at hu <;> simp [outLen]
      · have := hr hu; omega
    have hon : (BitVec.ofNat 32 (outLen i s.len.toNat)).toNat = outLen i s.len.toNat := by
      rw [BitVec.toNat_ofNat]; omega
    refine ⟨hi.cfg_wf, hi.mem_wf, hi.mem_inside, rfl, ?_, hi.no_phase_error, by simp,
      fun h => by simp at h, fun _ => rfl, fun _ => ?_⟩
    · simp only [accept_dlh]; split
      · decide
      · exact hi.dlh_legal
    · refine ⟨hon, fun hu => (hr hu).1, fun hu => ?_, fun hu => ?_, fun _ => .inl (by simp), ?_, ?_⟩
      · simp only [accept_outlen, hon]; exact (hr hu).2.1
      · simp only [accept_outlen, hon]; exact (hr hu).2.2
      · intro h; simp only [accept_opL] at h; subst h; simp
      · intro h; simp only [accept_opL] at h; subst h; simp

end Sys2Proof.Machine
end

