-- ==== Sys2Proof/Laws/PerInstr.lean ====
section
/-! SUPPORT. One lemma per command about its encoding: the word of the opcode table, its shape, and
that it decodes to the command. -/

namespace Sys2Proof.Laws.EncodingShape

/-- The command word has RSV = 0 and an OP that is not reserved, its value is OP, and the decoder and
the host's view of it read the command back (R121, R123, R125). -/
def Statement (i : Instr) : Prop :=
  rsvField (encode i) = 0 ∧ opField (encode i) = opcode i ∧ commandWordWf (encode i) = true ∧
    (encode i).toNat = (opcode i).toNat ∧ decode (encode i) = .ok i ∧
    decodeTableWord 32 (encode i).toNat = some i

theorem nop : Statement .nop := by unfold Statement; decide

theorem xlEnc : Statement .xlEnc := by unfold Statement; decide

theorem xlDec : Statement .xlDec := by unfold Statement; decide

theorem xlEncB : Statement .xlEncB := by unfold Statement; decide

theorem xlDecB : Statement .xlDecB := by unfold Statement; decide

theorem rpkEnc : Statement .rpkEnc := by unfold Statement; decide

theorem rpkDec : Statement .rpkDec := by unfold Statement; decide

end Sys2Proof.Laws.EncodingShape
end

