-- ==== Sys2Proof/Laws/Schedule.lean ====
section
/-! SUPPORT. The block's steps and the host's side: a step of a running operation does not depend on the
pending inputs or the bus, so an operation runs under WAIT as it runs alone. -/

namespace Sys2Proof.Machine

/-- The state with other pending inputs and another bus reply. -/
def State.withHost (l : List Input) (r : BusReply) (s : State) : State :=
  { s with inputs := l, bus := r }

@[simp] theorem State.withHost_withHost (l l' : List Input) (r r' : BusReply) (s : State) :
    (s.withHost l r).withHost l' r' = s.withHost l' r' := rfl

@[simp] theorem State.withHost_inputs (l : List Input) (r : BusReply) (s : State) :
    (s.withHost l r).inputs = l := rfl

@[simp] theorem State.withHost_statusBusy (l : List Input) (r : BusReply) (s : State) :
    (s.withHost l r).statusBusy = s.statusBusy := rfl

@[simp] theorem State.withHost_opL (l : List Input) (r : BusReply) (s : State) :
    (s.withHost l r).opL = s.opL := rfl

/-- Every state is itself with its own host's side. -/
theorem State.withHost_self (s : State) : s.withHost s.inputs s.bus = s := rfl

/-! ### Operations of the block commute with a change of the host's side -/

theorem fetchByte_withHost (l : List Input) (r : BusReply) (a : Nat) (s : State) :
    fetchByte a (s.withHost l r) = ((fetchByte a s).1, (fetchByte a s).2.withHost l r) := by
  unfold fetchByte State.withHost
  dsimp only
  cases s.mem.get a <;> rfl

theorem memRead_withHost (l : List Input) (r : BusReply) (a : Nat) (s : State) :
    memRead a (s.withHost l r) = (memRead a s).map (fun p => (p.1, p.2.withHost l r)) := by
  unfold memRead
  by_cases h : a < s.cfg.bufSize
  · rw [if_pos h, if_pos (show a < (s.withHost l r).cfg.bufSize from h), fetchByte_withHost]; rfl
  · rw [if_neg h, if_neg (show ¬a < (s.withHost l r).cfg.bufSize from h)]; rfl

theorem memWrite_withHost (l : List Input) (r : BusReply) (a : Nat) (b : Byte) (s : State) :
    memWrite a b (s.withHost l r) = (memWrite a b s).map (State.withHost l r) := by
  unfold memWrite
  by_cases h : a < s.cfg.bufSize
  · rw [if_pos h, if_pos (show a < (s.withHost l r).cfg.bufSize from h)]; rfl
  · rw [if_neg h, if_neg (show ¬a < (s.withHost l r).cfg.bufSize from h)]; rfl

theorem readCells_withHost (l : List Input) (r : BusReply) (n : Nat) : ∀ (a : Nat) (s : State),
    readCells n a (s.withHost l r) = (readCells n a s).map (fun p => (p.1, p.2.withHost l r)) := by
  induction n with
  | zero => intro a s; rfl
  | succ n ih =>
    intro a s
    simp only [readCells, memRead_withHost]
    cases memRead a s with
    | error f => rfl
    | ok p =>
      simp only [Except.map, ih]
      cases readCells n (a + 1) p.2 <;> rfl

theorem writeCells_withHost (l : List Input) (r : BusReply) (bs : List Byte) :
    ∀ (a : Nat) (s : State),
      writeCells bs a (s.withHost l r) = (writeCells bs a s).map (State.withHost l r) := by
  induction bs with
  | nil => intro a s; rfl
  | cons b bs ih =>
    intro a s
    simp only [writeCells, memWrite_withHost]
    cases memWrite a b s with
    | error f => rfl
    | ok t => simp only [Except.map, ih]

theorem readSource_withHost (l : List Input) (r : BusReply) (k : Nat) (s : State) :
    readSource k (s.withHost l r) = (readSource k s).map (fun p => (p.1, p.2.withHost l r)) := by
  unfold readSource
  by_cases h : k < s.lenL.toNat
  · rw [if_pos h, if_pos (show k < (s.withHost l r).lenL.toNat from h)]
    exact memRead_withHost l r _ s
  · rw [if_neg h, if_neg (show ¬k < (s.withHost l r).lenL.toNat from h)]; rfl

theorem readPriorIfUsed_withHost (l : List Input) (r : BusReply) (s : State) :
    readPriorIfUsed (s.withHost l r) =
      (readPriorIfUsed s).map (fun p => (p.1, p.2.withHost l r)) := by
  unfold readPriorIfUsed
  by_cases h : usesPrior s.eph = true
  · rw [if_pos h, if_pos (show usesPrior (s.withHost l r).eph = true from h)]
    show readPrior s.ecur.toNat (s.withHost l r) = _
    cases s.ecur.toNat with
    | zero => rfl
    | succ k => exact readSource_withHost l r k s
  · rw [if_neg h, if_neg (show ¬usesPrior (s.withHost l r).eph = true from h)]; rfl

/-- Changing the host's side commutes with every micro-step. -/
theorem microOf_withHost {i : Instr} {s t : State} (l : List Input) (r : BusReply)
    (h : microOf i s = .next t) : microOf i (s.withHost l r) = .next (t.withHost l r) := by
  have hx : ∀ f, translateBlock f s = .next t →
      translateBlock f (s.withHost l r) = .next (t.withHost l r) := by
    intro f h
    unfold translateBlock at h ⊢
    have e : readCells (min 16 ((s.withHost l r).outlen.toNat - (s.withHost l r).progress.toNat))
        (srcCell (s.withHost l r) (s.withHost l r).progress.toNat) (s.withHost l r) =
        (readCells (min 16 (s.outlen.toNat - s.progress.toNat)) (srcCell s s.progress.toNat) s).map
          (fun p => (p.1, p.2.withHost l r)) := readCells_withHost l r _ _ s
    dsimp only at h ⊢
    rw [e]
    cases hr : readCells (min 16 (s.outlen.toNat - s.progress.toNat)) (srcCell s s.progress.toNat) s with
    | error f => rw [hr] at h; cases h
    | ok p =>
      rw [hr] at h
      simp only [Except.map] at h ⊢
      have e := writeCells_withHost l r
        (((p.1 ++ List.replicate (16 - min 16 (s.outlen.toNat - s.progress.toNat)) (0x00 : Byte)).map f).take
          (min 16 (s.outlen.toNat - s.progress.toNat))) (dstCell p.2 s.progress.toNat) p.2
      simp only [State.withHost, dstCell] at e h ⊢
      rw [e]
      split at h
      · cases h
      · rename_i hw
        cases h
        rw [hw]
        rfl
  cases i with
  | nop => cases h; rfl
  | xlEnc => exact hx te h
  | xlDec => exact hx td h
  | xlEncB => cases h; rfl
  | xlDecB => cases h; rfl
  | rpkEnc =>
    simp only [microOf, emitSymbol] at h ⊢
    rw [readPriorIfUsed_withHost]
    cases hp : readPriorIfUsed s with
    | error f => rw [hp] at h; cases h
    | ok p =>
      rw [hp] at h
      simp only [Except.map] at h ⊢
      have e := readSource_withHost l r s.ecur.toNat p.2
      rw [show (s.withHost l r).ecur = s.ecur from rfl, e]
      cases hc : readSource s.ecur.toNat p.2 with
      | error f => rw [hc] at h; cases h
      | ok c =>
        rw [hc] at h
        simp only [Except.map] at h ⊢
        have e := memWrite_withHost l r (dstCell s s.progress.toNat) (symbolOf s.eph p.1 c.1) c.2
        rw [show memWrite (dstCell (s.withHost l r) (s.withHost l r).progress.toNat)
          (symbolOf (s.withHost l r).eph p.1 c.1) (c.2.withHost l r) = _ from e]
        cases hw : memWrite (dstCell s s.progress.toNat) (symbolOf s.eph p.1 c.1) c.2 with
        | error f => rw [hw] at h; cases h
        | ok u => rw [hw] at h; cases h; rfl
  | rpkDec =>
    simp only [microOf, emitByte] at h ⊢
    by_cases hd : s.dlh = 0b00
    · rw [if_pos hd] at h
      rw [if_pos (show (s.withHost l r).dlh = 0b00 from hd)]
      cases h; rfl
    · rw [if_neg hd] at h
      rw [if_neg (show ¬(s.withHost l r).dlh = 0b00 from hd)]
      have e := memRead_withHost l r (srcCell s s.dcur.toNat) s
      rw [show memRead (srcCell (s.withHost l r) (s.withHost l r).dcur.toNat) (s.withHost l r) = _ from e]
      cases ha : memRead (srcCell s s.dcur.toNat) s with
      | error f => rw [ha] at h; cases h
      | ok p =>
        rw [ha] at h
        simp only [Except.map] at h ⊢
        have e := memRead_withHost l r (srcCell s (s.dcur.toNat + 1)) p.2
        rw [show memRead (srcCell (s.withHost l r) ((s.withHost l r).dcur.toNat + 1))
          (p.2.withHost l r) = _ from e]
        cases hc : memRead (srcCell s (s.dcur.toNat + 1)) p.2 with
        | error f => rw [hc] at h; cases h
        | ok c =>
          rw [hc] at h
          simp only [Except.map] at h ⊢
          have e := memWrite_withHost l r (dstCell s s.progress.toNat)
            (byteOf (2 * s.dlh.toNat) p.1 c.1) c.2
          rw [show memWrite (dstCell (s.withHost l r) (s.withHost l r).progress.toNat)
            (byteOf (2 * (s.withHost l r).dlh.toNat) p.1 c.1) (c.2.withHost l r) = _ from e]
          cases hw : memWrite (dstCell s s.progress.toNat) (byteOf (2 * s.dlh.toNat) p.1 c.1) c.2 with
          | error f => rw [hw] at h; cases h
          | ok u => rw [hw] at h; cases h; rfl

/-- A step of a running operation does not depend on the host's side and leaves it as it is. -/
theorem exec_withHost {i : Instr} {s t : State} (l : List Input) (r : BusReply)
    (hb : s.statusBusy = true) (h : exec i s = .next t) :
    exec i (s.withHost l r) = .next (t.withHost l r) := by
  rw [exec_eq_lifecycle] at h ⊢
  by_cases hp : s.progress.toNat < s.outlen.toNat
  · rw [lifecycle_micro hb hp] at h
    rw [lifecycle_micro (s := s.withHost l r) hb hp]
    exact microOf_withHost l r h
  · rw [lifecycle_finished hb hp] at h
    rw [lifecycle_finished (s := s.withHost l r) hb hp]
    cases h; rfl

/-- A step of a running operation leaves the pending inputs. -/
theorem exec_inputs {i : Instr} {s t : State} (hb : s.statusBusy = true) (h : exec i s = .next t) :
    t.inputs = s.inputs := by
  have e := exec_withHost s.inputs s.bus hb h
  rw [s.withHost_self, h] at e
  injection e with e
  rw [e]; rfl

/-! ### An operation under WAIT -/

theorem step_withHost_wait_idle {s : State} (turns : List Nat) (rest : List Input) (r : BusReply)
    (hb : s.statusBusy = false) :
    step (s.withHost (.wait turns :: rest) r) = .next (s.withHost rest (.data (statusWord s))) := by
  rw [step_wait_idle (s := s.withHost (.wait turns :: rest) r) rfl hb]; rfl

theorem step_withHost_wait_busy {s : State} (turns : List Nat) (rest : List Input) (r : BusReply)
    (hb : s.statusBusy = true) :
    step (s.withHost (.wait turns :: rest) r) =
      .next (s.withHost (List.replicate (turns.headD 1) .blockTurn ++ .wait turns.tail :: rest)
        (.data (statusWord s))) := by
  rw [step_wait_busy (s := s.withHost (.wait turns :: rest) r) rfl hb]; rfl

theorem step_withHost_blockTurn_idle {s : State} (rest : List Input) (r : BusReply)
    (hb : s.statusBusy = false) :
    step (s.withHost (.blockTurn :: rest) r) = .next (s.withHost rest r) := by
  rw [step_blockTurn_idle (s := s.withHost (.blockTurn :: rest) r) rfl hb]; rfl

theorem step_withHost_blockTurn_busy {s t : State} (rest : List Input) (r : BusReply)
    (hb : s.statusBusy = true) (h : exec s.opL s = .next t) :
    step (s.withHost (.blockTurn :: rest) r) = .next (t.withHost rest r) := by
  rw [step_blockTurn_busy (s := s.withHost (.blockTurn :: rest) r) rfl hb]
  exact exec_withHost (s := s) rest r hb h

/-- If the block alone is busy for `k` steps and then idle in `t`, then under WAIT, whatever turns it
gets before the next poll and between the polls, it comes to `t` with WAIT ended and the last STATUS on
the bus. -/
theorem steps_wait (k : Nat) : ∀ (s t : State) (n : Nat) (turns : List Nat) (rest : List Input)
    (r : BusReply), s.inputs = [] →
    (∀ j, j < k → ∃ u, steps j s = .next u ∧ u.statusBusy = true) →
    steps k s = .next t → t.statusBusy = false →
    ∃ j, steps j (s.withHost (List.replicate n .blockTurn ++ .wait turns :: rest) r) =
      .next (t.withHost rest (.data (statusWord t))) := by
  induction k with
  | zero =>
    intro s t n turns rest r _ _ hk ht
    cases hk
    induction n with
    | zero => exact ⟨1, steps_succ 0 (step_withHost_wait_idle turns rest r ht)⟩
    | succ n ih =>
      obtain ⟨j, hj⟩ := ih
      rw [List.replicate_succ, List.cons_append]
      exact ⟨j + 1, (steps_succ j (step_withHost_blockTurn_idle _ r ht)).trans hj⟩
  | succ k ih =>
    intro s t n turns rest r hin hbusy hk ht
    have hb : s.statusBusy = true := by
      obtain ⟨u, hu, hub⟩ := hbusy 0 (by omega)
      cases hu; exact hub
    obtain ⟨u, hu⟩ : ∃ u, exec s.opL s = .next u := by
      simp only [steps, step_no_input_busy hin hb] at hk
      cases he : exec s.opL s with
      | next u => exact ⟨u, rfl⟩
      | fault f => rw [he] at hk; cases hk
      | refused f => rw [he] at hk; cases hk
    have hs : step s = .next u := by rw [step_no_input_busy hin hb, hu]
    have turn : ∀ m turns r, ∃ j,
        steps j (s.withHost (List.replicate (m + 1) .blockTurn ++ .wait turns :: rest) r) =
          .next (t.withHost rest (.data (statusWord t))) := by
      intro m turns r
      obtain ⟨j, hj⟩ := ih u t m turns rest r (by rw [exec_inputs hb hu, hin])
        (fun j hj => by
          obtain ⟨v, hv, hvb⟩ := hbusy (j + 1) (by omega)
          rw [steps_succ j hs] at hv
          exact ⟨v, hv, hvb⟩)
        (by rw [steps_succ k hs] at hk; exact hk) ht
      rw [List.replicate_succ, List.cons_append]
      exact ⟨j + 1, (steps_succ j (step_withHost_blockTurn_busy _ r hb hu)).trans hj⟩
    cases n with
    | succ m => exact turn m turns r
    | zero =>
      rw [List.replicate_zero, List.nil_append]
      induction turns generalizing r with
      | nil =>
        obtain ⟨j, hj⟩ := turn 0 [] (.data (statusWord s))
        exact ⟨j + 1, (steps_succ j (step_withHost_wait_busy [] rest r hb)).trans hj⟩
      | cons m turns iht =>
        obtain ⟨j, hj⟩ : ∃ j, steps j (s.withHost (List.replicate m .blockTurn ++ .wait turns :: rest)
            (.data (statusWord s))) = .next (t.withHost rest (.data (statusWord t))) := by
          cases m with
          | zero => exact iht _
          | succ m => exact turn m turns _
        exact ⟨j + 1, (steps_succ j (step_withHost_wait_busy (m :: turns) rest r hb)).trans hj⟩

end Sys2Proof.Machine
end

