-- ==== Sys2Proof/Tests/Slice0.lean ====
section
/-! SUPPORT. The model's own tests: decoding of words written out from the spec's encoding, one step of
each command on the spec's vectors (spec/95_test_vectors.md), and a witness for the hypotheses of
every statement. -/

namespace Sys2Proof.Tests

open Sys2Proof.Machine

/-! ### Helpers -/

/-- What `f` says of the next state, none if the step stopped. -/
def view {α : Type} (f : State → α) : Result → Option α
  | .next t => some (f t)
  | .fault _ => none
  | .refused _ => none

/-- An idle block: the cells at 0, SRC 0, DST 0x100, LEN the number of cells. -/
def idleWith (cells : List Byte) : State :=
  { State.reset with
    mem := Memory.setBytes [] 0 cells, dst := 0x100, len := BitVec.ofNat 32 cells.length }

/-- Command `i` accepted on that block, no micro-step taken. -/
def running (i : Instr) (cells : List Byte) : State := accept i (outLen i cells.length) (idleWith cells)

/-- RPK.ENC of four bytes, at the given cursor. -/
def encodeAt (progress ecur : Word) (eph : BitVec 2) : State :=
  { running .rpkEnc [0x4D, 0x61, 0x6E, 0xFF] with progress := progress, ecur := ecur, eph := eph }

/-- RPK.DEC of four cells, at the given cursor. -/
def decodeAt (progress dcur : Word) (dlh : BitVec 2) : State :=
  { running .rpkDec [0x13, 0x16, 0x05, 0x2E] with progress := progress, dcur := dcur, dlh := dlh }

/-- An idle block with these operand registers. -/
def operands (src len dst : Word) : State := { State.reset with src := src, len := len, dst := dst }

/-- The state with these inputs pending. -/
def given (l : List Input) (s : State) : State := { s with inputs := l }

/-! ### Well-formedness: every check refuses an ill-formed term -/

theorem test_wf_every_command : ∀ i : Instr, i.wf = true := by intro i; cases i <;> rfl

theorem test_wf_reserved_bits :
    commandWordWf 0b00000000000000000000000000010101 = false ∧
      decode 0b00000000000000000000000000010101 = .error .reservedBits := by decide

theorem test_wf_reserved_opcode :
    commandWordWf 0b00000000000000000000000000000111 = false ∧
      decode 0b00000000000000000000000000000111 = .error .reservedOpcode ∧
      commandWordWf 0b00000000000000000000000000001111 = false ∧
      decode 0b00000000000000000000000000001111 = .error .reservedOpcode := by decide

theorem test_wf_buf_size_too_small : Config.wf ⟨15, 0, 0⟩ = false ∧ Config.wf ⟨16, 0, 0⟩ = true := by
  decide

theorem test_wf_buf_size_too_big :
    Config.wf ⟨2 ^ 31 + 1, 0, 0⟩ = false ∧ Config.wf ⟨2 ^ 31, 0, 0⟩ = true := by decide

/-! ### Decoding: the words of R121 and R123, bit by bit (RSV in bits 31:4, OP in bits 3:0) -/

theorem test_decode_nop : decode 0b00000000000000000000000000000000 = .ok .nop := by decide

theorem test_decode_xlEnc : decode 0b00000000000000000000000000000001 = .ok .xlEnc := by decide

theorem test_decode_xlDec : decode 0b00000000000000000000000000000010 = .ok .xlDec := by decide

theorem test_decode_xlEncB : decode 0b00000000000000000000000000000011 = .ok .xlEncB := by decide

theorem test_decode_xlDecB : decode 0b00000000000000000000000000000100 = .ok .xlDecB := by decide

theorem test_decode_rpkEnc : decode 0b00000000000000000000000000000101 = .ok .rpkEnc := by decide

theorem test_decode_rpkDec : decode 0b00000000000000000000000000000110 = .ok .rpkDec := by decide

theorem test_decodeTableWord :
    decodeTableWord 32 5 = some .rpkEnc ∧ decodeTableWord 32 7 = none ∧
      decodeTableWord 32 0x80000000 = none ∧ decodeTableWord 33 (2 ^ 32) = none := by decide

/-! ### One step of each command -/

/-- V-CMD-1: accepted; STATUS shows BUSY and LASTOP 0. -/
theorem test_nop_accepted : view statusWord (exec .nop State.reset) = some 0x00000001 := by decide

/-- V-CMD-1: the next block step completes; STATUS = 0x0000_0002. -/
theorem test_nop_completes : view statusWord (exec .nop (running .nop [])) = some 0x00000002 := by
  decide

/-- P1: the Symbols of "Man" become "TWFu", in one micro-step. -/
theorem test_xlEnc_micro_step :
    view (fun t => (bufferBytes t.mem 0x100 5, t.progress))
      (exec .xlEnc (running .xlEnc [0x13, 0x16, 0x05, 0x2E])) =
    some ([some 0x54, some 0x57, some 0x46, some 0x75, none], 4) := by decide

/-- V-CMD-6: no 32-bit wrap in the range check. -/
theorem test_xlEnc_range :
    view (fun t => (statusWord t, errWord t))
      (exec .xlEnc { State.reset with src := 0xFFFFFFFF, len := 2 }) =
    some (0x00000004, 0x04) := by decide

/-- V-HO: the cells of "TQ==" are 13 10 3D 3D. -/
theorem test_xlDec_micro_step :
    view (fun t => (bufferBytes t.mem 0x100 4, t.progress))
      (exec .xlDec (running .xlDec [0x54, 0x51, 0x3D, 0x3D])) =
    some ([some 0x13, some 0x10, some 0x3D, some 0x3D], 4) := by decide

/-- V-CMD-9: in place is an overlap. -/
theorem test_xlDec_overlap :
    view (fun t => (statusWord t, errWord t)) (exec .xlDec { State.reset with len := 4 }) =
    some (0x00000004, 0x08) := by decide

/-- P3, lines 1 to 7. -/
theorem test_xlEncB_micro_step :
    view (fun t => (t.blk0, t.blk1, t.blk2, t.blk3))
      (exec .xlEncB { running .xlEncB [] with
        blk0 := 0x331A1900, blk1 := 0x3F3E3D34, blk2 := 0x0000FF40, blk3 := 0x00000504 }) =
    some (0x7A615A41, 0x2F2B3930, 0x4141FF40, 0x41414645) := by decide

/-- P3, lines 8 to 10. -/
theorem test_xlDecB_micro_step :
    view (fun t => (t.blk0, t.blk1, t.blk2, t.blk3))
      (exec .xlDecB { running .xlDecB [] with
        blk0 := 0x7A615A41, blk1 := 0x2F2B3930, blk2 := 0x4141FF40, blk3 := 0x41414645 }) =
    some (0x331A1900, 0x3F3E3D34, 0x0000FF40, 0x00000504) := by decide

/-- V-RE-1, step 1: Symbol 0x16, then cursor (2, 0b10). -/
theorem test_rpkEnc_second_symbol :
    view (fun t => (t.mem.get 0x101, t.ecur, t.eph))
      (exec .rpkEnc { running .rpkEnc [0x4D, 0x61, 0x6E] with progress := 1, ecur := 1, eph := 0b01 }) =
    some (some 0x16, 2, 0b10) := by decide

/-- V-RE-2, input 4D: the second Symbol is 16, with zero fill from beyond the source. -/
theorem test_rpkEnc_zero_fill :
    view (fun t => (t.mem.get 0x101, t.ecur, t.eph, t.draws))
      (exec .rpkEnc { running .rpkEnc [0x4D] with progress := 1, ecur := 1, eph := 0b01 }) =
    some (some 16, 2, 0b10, 0) := by decide

/-- V-RD-1, step 2: byte 0x6E, then cursor (4, 0b11). -/
theorem test_rpkDec_third_byte :
    view (fun t => (t.mem.get 0x102, t.dcur, t.dlh)) (exec .rpkDec (decodeAt 2 2 0b01)) =
    some (some 0x6E, 4, 0b11) := by decide

/-- V-RD-2, malformed cells 7E 80 3D 3D: byte 0 is F8. -/
theorem test_rpkDec_malformed :
    view (fun t => t.mem.get 0x100) (exec .rpkDec (running .rpkDec [0x7E, 0x80, 0x3D, 0x3D])) =
    some (some 0xF8) := by decide

/-! ### The host's side -/

/-- V-CMD-19: the reset state. -/
theorem test_reset :
    readRegister 0x000 State.reset = 0x0B640001 ∧ readRegister 0x030 State.reset = 0x00000030 ∧
      readRegister 0x008 State.reset = 0 ∧ readRegister 0x0FC State.reset = 0 ∧
      State.reset.irq = false := by decide

/-- V-CMD-20: a word write at 0x3FC is legal, one at 0x3FE is a bus error. -/
theorem test_bus_errors :
    view (fun t => t.bus) (hostAccess (.write .buf 0x3FC 4 0) State.reset) = some .written ∧
      view (fun t => t.bus) (hostAccess (.write .buf 0x3FE 4 0) State.reset) = some .busError ∧
      view (fun t => t.bus) (hostAccess (.read .reg 0x008 1) State.reset) = some .busError := by decide

/-- V-CMD-21: byte order. -/
theorem test_byte_order :
    view (fun t => t.bus) (hostAccess (.read .buf 2 2)
      { State.reset with mem := [(0, 0x41), (1, 0x42), (2, 0x43), (3, 0x44)] }) =
    some (.data 0x4443) := by decide

/-- V-CMD-16: a host write of BUF while BUSY = 1 is discarded. -/
theorem test_busywr :
    view (fun t => (t.mem.get 0, errWord t))
      (hostAccess (.write .buf 0 1 0x41) (running .xlDec [0x54, 0x57, 0x46, 0x75])) =
    some (some 0x54, 0x20) := by decide

/-- R127 (V-CMD-1 for the values): a poll of WAIT reads STATUS; at BUSY = 1 the loop goes on. -/
theorem test_wait_goes_on :
    view (fun t => (t.bus, t.inputs)) (step (given [.wait [0, 2], .reset] (running .nop []))) =
    some (.data 0x00000001, [.wait [2], .reset]) := by decide

/-- R127 (V-CMD-1): the poll that finds BUSY = 0 ends WAIT. -/
theorem test_wait_ends :
    view (fun t => (t.bus, t.inputs)) (step (given [.wait [2], .reset] (complete (running .nop [])))) =
    some (.data 0x00000002, [.reset]) := by decide

/-! ### Witnesses: the hypotheses of the statements can be met together -/

theorem witness_StepRunsDecodedCommand :
    (∀ i : Instr, ∃ w, (given [.access (.write .reg 0x004 4 w)] State.reset).inputs =
      [.access (.write .reg 0x004 4 w)] ∧ State.reset.statusBusy = false ∧ decode w = .ok i) := by
  intro i; cases i
  · exact ⟨0, by decide⟩
  · exact ⟨1, by decide⟩
  · exact ⟨2, by decide⟩
  · exact ⟨3, by decide⟩
  · exact ⟨4, by decide⟩
  · exact ⟨5, by decide⟩
  · exact ⟨6, by decide⟩

theorem witness_BlockStepsTheLatchedCommand :
    (running .rpkEnc [1]).inputs = [] ∧ (running .rpkEnc [1]).statusBusy = true ∧
      State.reset.inputs = [] ∧ State.reset.statusBusy = false ∧
      (given [.blockTurn] (running .rpkEnc [1])).inputs = [.blockTurn] ∧
      (given [.blockTurn] (running .rpkEnc [1])).statusBusy = true ∧
      (given [.blockTurn] State.reset).inputs = [.blockTurn] ∧
      (given [.blockTurn] State.reset).statusBusy = false := by decide

theorem witness_WaitingGivesTheBlockItsSteps :
    (given [.wait [2]] (running .nop [])).inputs = [.wait [2]] ∧
      (statusWord (given [.wait [2]] (running .nop []))).getLsbD 0 = true ∧
      (given [.wait []] State.reset).inputs = [.wait []] ∧
      (statusWord (given [.wait []] State.reset)).getLsbD 0 = false ∧
      (given [.waitIrq] State.reset).inputs = [.waitIrq] ∧
      ({ State.reset with statusDone := true, doneIE := true }).irq = true ∧
      (running .nop []).irq = false ∧ State.reset.irq = false := by decide

theorem witness_CommandWhileBusyIsRejected :
    (given [.access (.write .reg 0x004 4 7)] (running .xlDec [1])).inputs =
      [.access (.write .reg 0x004 4 7)] ∧
    (given [.access (.write .reg 0x004 4 7)] (running .xlDec [1])).statusBusy = true := by decide

/-- The two least and the greatest illegal words of each kind. -/
theorem witness_IllegalCommandIsRejected :
    (given [.access (.write .reg 0x004 4 7)] State.reset).inputs = [.access (.write .reg 0x004 4 7)] ∧
      State.reset.statusBusy = false ∧ (0x00000010 : Word).toNat / 16 ≠ 0 ∧
      (0xFFFFFFFF : Word).toNat / 16 ≠ 0 ∧ 7 ≤ (0x00000007 : Word).toNat % 16 ∧
      7 ≤ (0x0000000F : Word).toNat % 16 := by decide

/-- V-CMD-4 (source beyond the end by one), V-CMD-5 (destination) and V-CMD-8 (an empty range). -/
theorem witness_RangeIsRejected :
    ∀ p ∈ [(Instr.xlEnc, operands 0x3FE 3 0), (.rpkEnc, operands 0 3 0x3FD), (.rpkDec, operands 0x401 0 0)],
      (p.1 = .xlEnc ∨ p.1 = .xlDec ∨ p.1 = .rpkEnc ∨ p.1 = .rpkDec) ∧ p.2.statusBusy = false ∧
      ¬(p.2.src.toNat + p.2.len.toNat ≤ p.2.cfg.bufSize ∧
        p.2.dst.toNat + outLen p.1 p.2.len.toNat ≤ p.2.cfg.bufSize) := by decide

/-- V-CMD-10: the ranges share byte 0x100 alone. -/
theorem witness_OverlapIsRejected :
    ∀ s ∈ [operands 0x100 3 0xFD], s.statusBusy = false ∧
      s.src.toNat + s.len.toNat ≤ s.cfg.bufSize ∧
      s.dst.toNat + outLen .rpkEnc s.len.toNat ≤ s.cfg.bufSize ∧
      s.src.toNat ≤ 0x100 ∧ 0x100 < s.src.toNat + s.len.toNat ∧
      s.dst.toNat ≤ 0x100 ∧ 0x100 < s.dst.toNat + outLen .rpkEnc s.len.toNat := by decide

theorem witness_UncheckedCommandsAreAccepted : State.reset.statusBusy = false := by decide

/-- Two ranges that touch and end at the very end of BUFMEM, and two empty ones beyond its last byte. -/
theorem witness_TranslationsAreAccepted :
    ∀ s ∈ [operands 0x3F8 4 0x3FC, operands 0x400 0 0x400], s.statusBusy = false ∧
      s.src.toNat + s.len.toNat ≤ s.cfg.bufSize ∧ s.dst.toNat + s.len.toNat ≤ s.cfg.bufSize ∧
      RangesDisjoint s.src.toNat s.len.toNat s.dst.toNat s.len.toNat := by
  unfold RangesDisjoint; decide

/-- V-CMD-11 and V-CMD-7. -/
theorem witness_RepackEncodeIsAccepted :
    ∀ s ∈ [operands 0x100 3 0xFC, operands 0x400 0 0x400], s.statusBusy = false ∧
      s.src.toNat + s.len.toNat ≤ s.cfg.bufSize ∧
      s.dst.toNat + (4 * s.len.toNat + 2) / 3 ≤ s.cfg.bufSize ∧
      RangesDisjoint s.src.toNat s.len.toNat s.dst.toNat ((4 * s.len.toNat + 2) / 3) := by
  unfold RangesDisjoint; decide

theorem witness_RepackDecodeIsAccepted :
    ∀ s ∈ [operands 0x100 4 0x104, operands 0x400 0 0x400], s.statusBusy = false ∧
      s.src.toNat + s.len.toNat ≤ s.cfg.bufSize ∧ s.dst.toNat + (3 * s.len.toNat) / 4 ≤ s.cfg.bufSize ∧
      RangesDisjoint s.src.toNat s.len.toNat s.dst.toNat ((3 * s.len.toNat) / 4) := by
  unfold RangesDisjoint; decide

theorem witness_CompletionStep :
    (running .nop []).statusBusy = true ∧
      ¬((running .nop []).progress.toNat < (running .nop []).outlen.toNat) := by decide

theorem witness_NopCompletesInOneBlockStep :
    State.reset.statusBusy = false ∧
      (given [.access (.write .reg 0x004 4 0)] State.reset).inputs =
        [.access (.write .reg 0x004 4 0x00000000)] := by decide

theorem witness_IllegalPhaseAborts :
    (decodeAt 1 1 0b00).statusBusy = true ∧
      (decodeAt 1 1 0b00).progress.toNat < (decodeAt 1 1 0b00).outlen.toNat ∧
      (decodeAt 1 1 0b00).dlh = 0b00 := by decide

/-- At both ends: a full first block, and the last cell alone. -/
theorem witness_TranslationMicroStep :
    ∀ p ∈ [(0, 16), (16, 1)],
      ({ running .xlEnc (List.replicate 17 0) with progress := BitVec.ofNat 32 p.1 }).statusBusy = true ∧
      p.1 = (BitVec.ofNat 32 p.1).toNat ∧ p.1 < (17 : Word).toNat ∧
      p.2 = min 16 ((17 : Word).toNat - p.1) ∧
      (running .xlEnc (List.replicate 17 0)).outlen = 17 ∧
      (running .xlEnc (List.replicate 17 0)).srcL.toNat + 17 ≤ Config.reference.bufSize ∧
      (running .xlEnc (List.replicate 17 0)).dstL.toNat + 17 ≤ Config.reference.bufSize := by decide

theorem witness_LaneMicroStep :
    ∀ d ∈ [Instr.xlEncB, Instr.xlDecB], (running d []).statusBusy = true ∧
      (running d []).progress.toNat < (running d []).outlen.toNat := by decide

/-- The whole-operation statements of XL.ENC, XL.DEC: 17 cells, so two micro-steps, and no cell. -/
theorem witness_XlEncTranslatesItsSource :
    ∀ cells ∈ [List.replicate 17 (0x05 : Byte), []],
      (given [.access (.write .reg 0x004 4 0x00000001)] (idleWith cells)).statusBusy = false ∧
      (idleWith cells).len.toNat = cells.length ∧
      (idleWith cells).src.toNat + cells.length ≤ (idleWith cells).cfg.bufSize ∧
      (idleWith cells).dst.toNat + cells.length ≤ (idleWith cells).cfg.bufSize ∧
      RangesDisjoint (idleWith cells).src.toNat cells.length (idleWith cells).dst.toNat cells.length ∧
      Holds (idleWith cells).mem (idleWith cells).src.toNat cells := by
  unfold RangesDisjoint Holds; decide

theorem witness_XlDecTranslatesItsSource :
    ∀ cells ∈ [List.replicate 17 (0x54 : Byte), []],
      (given [.access (.write .reg 0x004 4 0x00000002)] (idleWith cells)).inputs =
        [.access (.write .reg 0x004 4 0x00000002)] ∧ (idleWith cells).statusBusy = false ∧
      (idleWith cells).len.toNat = cells.length ∧
      (idleWith cells).src.toNat + cells.length ≤ (idleWith cells).cfg.bufSize ∧
      (idleWith cells).dst.toNat + cells.length ≤ (idleWith cells).cfg.bufSize ∧
      RangesDisjoint (idleWith cells).src.toNat cells.length (idleWith cells).dst.toNat cells.length ∧
      Holds (idleWith cells).mem (idleWith cells).src.toNat cells := by
  unfold RangesDisjoint Holds; decide

theorem witness_BlockRegisterCommandsTranslateTheLanes :
    ∀ d ∈ [Instr.xlEncB, Instr.xlDecB], State.reset.statusBusy = false ∧
      (given [.access (.write .reg 0x004 4 (if d = .xlEncB then 0x00000003 else 0x00000004))]
        State.reset).inputs =
        [.access (.write .reg 0x004 4 (if d = .xlEncB then 0x00000003 else 0x00000004))] := by decide

theorem witness_LaneFunctionsAreInverse : (63 : Byte).toNat < 64 ∧ (43 : Byte) ∈ alphabet := by decide

/-- The four phases of the encode cursor, with a source byte for each read of the last Symbol's
phase too (`rd` beyond the source is 0). -/
theorem witness_RepackEncodeMicroStep :
    ∀ s ∈ [encodeAt 0 0 0b00, encodeAt 1 1 0b01, encodeAt 2 2 0b10, encodeAt 3 2 0b11,
        encodeAt 5 4 0b01],
      s.statusBusy = true ∧ s.progress.toNat < s.outlen.toNat ∧ s.ecur.toNat + 1 < 2 ^ 32 ∧
      (s.eph = 0b01 ∨ s.eph = 0b10 → 1 ≤ s.ecur.toNat) ∧
      s.srcL.toNat + s.lenL.toNat ≤ s.cfg.bufSize ∧
      s.dstL.toNat + s.progress.toNat < s.cfg.bufSize ∧
      (∃ b : Byte, SourceIs s (s.ecur.toNat - 1) b) ∧ (∃ b : Byte, SourceIs s s.ecur.toNat b) := by
  intro s h
  simp only [List.mem_cons, List.not_mem_nil, or_false] at h
  unfold SourceIs
  rcases h with rfl | rfl | rfl | rfl | rfl
  · exact ⟨by decide, by decide, by decide, by decide, by decide, by decide, ⟨0x4D, by decide⟩,
      ⟨0x4D, by decide⟩⟩
  · exact ⟨by decide, by decide, by decide, by decide, by decide, by decide, ⟨0x4D, by decide⟩,
      ⟨0x61, by decide⟩⟩
  · exact ⟨by decide, by decide, by decide, by decide, by decide, by decide, ⟨0x61, by decide⟩,
      ⟨0x6E, by decide⟩⟩
  · exact ⟨by decide, by decide, by decide, by decide, by decide, by decide, ⟨0x61, by decide⟩,
      ⟨0x6E, by decide⟩⟩
  · exact ⟨by decide, by decide, by decide, by decide, by decide, by decide, ⟨0xFF, by decide⟩,
      ⟨0x00, by decide⟩⟩

theorem witness_RepackEncodeWritesSymbols :
    (encodeAt 1 1 0b01).statusBusy = true ∧
      (encodeAt 1 1 0b01).progress.toNat < (encodeAt 1 1 0b01).outlen.toNat ∧
      view (fun t => t.mem.get ((encodeAt 1 1 0b01).dstL.toNat + 1)) (exec .rpkEnc (encodeAt 1 1 0b01)) =
        some (some 0x16) := by decide

/-- The three phases of the decode cursor. -/
theorem witness_RepackDecodeMicroStep :
    ∀ s ∈ [decodeAt 0 0 0b11, decodeAt 1 1 0b10, decodeAt 2 2 0b01],
      s.statusBusy = true ∧ s.progress.toNat < s.outlen.toNat ∧ s.dlh ≠ 0b00 ∧
      s.srcL.toNat + s.dcur.toNat + 1 < s.cfg.bufSize ∧
      s.dstL.toNat + s.progress.toNat < s.cfg.bufSize ∧
      (s.mem.get (s.srcL.toNat + s.dcur.toNat)).isSome = true ∧
      (s.mem.get (s.srcL.toNat + s.dcur.toNat + 1)).isSome = true := by decide

/-- Every remainder modulo 3, and the empty buffer. -/
theorem witness_RpkEncRepacksItsSource :
    ∀ bytes ∈ [[], [0x4D], [0x4D, 0x61], ([0x4D, 0x61, 0x6E] : List Byte)],
      (idleWith bytes).cfg.wf = true ∧ (idleWith bytes).statusBusy = false ∧
      (given [.access (.write .reg 0x004 4 0x00000005)] (idleWith bytes)).inputs =
        [.access (.write .reg 0x004 4 0x00000005)] ∧
      (idleWith bytes).len.toNat = bytes.length ∧
      (idleWith bytes).src.toNat + bytes.length ≤ (idleWith bytes).cfg.bufSize ∧
      (idleWith bytes).dst.toNat + (4 * bytes.length + 2) / 3 ≤ (idleWith bytes).cfg.bufSize ∧
      RangesDisjoint (idleWith bytes).src.toNat bytes.length (idleWith bytes).dst.toNat
        ((4 * bytes.length + 2) / 3) ∧
      Holds (idleWith bytes).mem (idleWith bytes).src.toNat bytes := by
  unfold RangesDisjoint Holds; decide

/-- Symbol cells, and cells that are none. -/
theorem witness_RpkDecRepacksItsSource :
    ∀ cells ∈ [[], [0x13], [0x7E, 0x80, 0x3D, 0x3D], ([0x13, 0x16, 0x05, 0x2E] : List Byte)],
      (idleWith cells).cfg.wf = true ∧ (idleWith cells).statusBusy = false ∧
      (given [.access (.write .reg 0x004 4 0x00000006)] (idleWith cells)).inputs =
        [.access (.write .reg 0x004 4 0x00000006)] ∧
      (idleWith cells).len.toNat = cells.length ∧
      (idleWith cells).src.toNat + cells.length ≤ (idleWith cells).cfg.bufSize ∧
      (idleWith cells).dst.toNat + (3 * cells.length) / 4 ≤ (idleWith cells).cfg.bufSize ∧
      RangesDisjoint (idleWith cells).src.toNat cells.length (idleWith cells).dst.toNat
        ((3 * cells.length) / 4) ∧
      Holds (idleWith cells).mem (idleWith cells).src.toNat cells := by
  unfold RangesDisjoint Holds; decide

theorem witness_RpkDecRepacksItsSource_symbols :
    ∀ c ∈ ([0x13, 0x16, 0x05, 0x2E] : List Byte), c.toNat < 64 := by decide

theorem witness_RepackDecodeInvertsRepackEncode :
    (idleWith [0x4D, 0x61]).cfg.wf = true ∧ (idleWith [0x4D, 0x61]).statusBusy = false ∧
      3 = (4 * 2 + 2) / 3 ∧
      (given (hostRUN .rpkEnc 0 0x100 2 [] ++ hostRUN .rpkDec 0x100 0x200 3 [0, 2]) (idleWith [0x4D, 0x61])).inputs =
        hostRUN .rpkEnc 0 0x100 2 [] ++ hostRUN .rpkDec 0x100 0x200 3 [0, 2] ∧
      0 + 2 ≤ (idleWith [0x4D, 0x61]).cfg.bufSize ∧ 0x100 + 3 ≤ (idleWith [0x4D, 0x61]).cfg.bufSize ∧
      0x200 + 2 ≤ (idleWith [0x4D, 0x61]).cfg.bufSize ∧ RangesDisjoint 0 2 0x100 3 ∧
      RangesDisjoint 0x100 3 0x200 2 ∧ Holds (idleWith [0x4D, 0x61]).mem 0 [0x4D, 0x61] := by
  unfold RangesDisjoint Holds; decide

/-- A busy state in the middle of RPK.ENC meets the invariant. -/
theorem running_meets_the_invariant : (encodeAt 2 2 0b10).Inv := by
  refine ⟨by decide, by decide, by decide, by decide, by decide, by decide, by decide, by decide,
    by decide, fun _ => ⟨by decide, by decide, by decide, ?_, by decide, by decide, by decide⟩⟩
  unfold RangesDisjoint; decide

/-- An accepted operation with no micro-step taken meets the invariant. -/
theorem accepted_meets_the_invariant : (encodeAt 0 0 0b00).Inv := by
  refine ⟨by decide, by decide, by decide, by decide, by decide, by decide, by decide, by decide,
    by decide, fun _ => ⟨by decide, by decide, by decide, ?_, by decide, by decide, by decide⟩⟩
  unfold RangesDisjoint; decide

theorem witness_StepKeepsTheInvariant :
    (encodeAt 2 2 0b10).Inv ∧ ∃ t, step (encodeAt 2 2 0b10) = .next t :=
  ⟨running_meets_the_invariant, _, rfl⟩

theorem witness_NoStepStopsTheMachine : (encodeAt 2 2 0b10).Inv := running_meets_the_invariant

theorem witness_EveryAcceptedOperationEnds :
    (encodeAt 0 0 0b00).Inv ∧ (encodeAt 0 0 0b00).statusBusy = true ∧
      (encodeAt 0 0 0b00).progress = 0 ∧ (encodeAt 0 0 0b00).inputs = [] ∧
      6 ≤ microSteps (encodeAt 0 0 0b00).opL (encodeAt 0 0 0b00).outlen.toNat :=
  ⟨accepted_meets_the_invariant, by decide, by decide, by decide, by decide⟩

/-- A host that writes CMD, waits and resets while the operation runs. -/
theorem witness_RunningOperationEndsUnderEveryHost :
    (given [.access (.write .reg 0x004 4 7), .waitIrq, .wait [0, 2], .reset] (encodeAt 2 2 0b10)).Inv ∧
      (given [.access (.write .reg 0x004 4 7), .waitIrq, .wait [0, 2], .reset]
        (encodeAt 2 2 0b10)).statusBusy = true :=
  ⟨running_meets_the_invariant.with_host_fields _ _ _ _ _ _ _ _ _ _ _ _ _ _ (by decide) (by decide),
    by decide⟩

theorem witness_ProgressOnlyAdvances :
    (encodeAt 2 2 0b10).Inv ∧ (encodeAt 2 2 0b10).statusBusy = true ∧
      (∀ rest, (encodeAt 2 2 0b10).inputs ≠ .reset :: rest) ∧
      ∃ t, step (encodeAt 2 2 0b10) = .next t :=
  ⟨running_meets_the_invariant, by decide, fun _ h => List.noConfusion rfl (heq_of_eq h), _, rfl⟩

theorem witness_ParametersNeverChange : ∃ t, step State.reset = .next t := ⟨_, rfl⟩

/-- V-CMD-20: a wrong width, a misaligned offset, the first offset beyond the region. -/
theorem witness_IllegalRegisterAccessIsABusError :
    ¬(1 = 4 ∧ 0x008 % 4 = 0 ∧ 0x008 < 0x100) ∧ ¬(4 = 4 ∧ 0x00A % 4 = 0 ∧ 0x00A < 0x100) ∧
      ¬(4 = 4 ∧ 0x100 % 4 = 0 ∧ 0x100 < 0x100) ∧
      (given [.access (.read .reg 0x00A 4)] State.reset).inputs = [.access (.read .reg 0x00A 4)] ∧
      (given [.access (.write .reg 0x100 4 0)] State.reset).inputs =
        [.access (.write .reg 0x100 4 0)] := by decide

/-- A wrong width, an odd offset, one byte beyond the end. -/
theorem witness_IllegalBufferAccessIsABusError :
    ¬((3 = 1 ∨ 3 = 2 ∨ 3 = 4) ∧ 0 % 3 = 0 ∧ 0 + 3 ≤ State.reset.cfg.bufSize) ∧
      ¬((2 = 1 ∨ 2 = 2 ∨ 2 = 4) ∧ 1 % 2 = 0 ∧ 1 + 2 ≤ State.reset.cfg.bufSize) ∧
      ¬((1 = 1 ∨ 1 = 2 ∨ 1 = 4) ∧ 0x400 % 1 = 0 ∧ 0x400 + 1 ≤ State.reset.cfg.bufSize) ∧
      (given [.access (.read .buf 1 2)] State.reset).inputs = [.access (.read .buf 1 2)] ∧
      (given [.access (.write .buf 0x400 1 0)] State.reset).inputs =
        [.access (.write .buf 0x400 1 0)] := by decide

/-- Every offset of the register region, idle; the offsets but BLK0 to BLK3, busy. -/
theorem witness_RegisterReadsReturnTheMap :
    ∀ k < 64, 4 * k % 4 = 0 ∧ 4 * k < 0x100 ∧
      (given [.access (.read .reg (4 * k) 4)] State.reset).inputs = [.access (.read .reg (4 * k) 4)] ∧
      (State.reset.statusBusy = true → 4 * k < 0x040 ∨ 0x050 ≤ 4 * k) ∧
      (running .nop []).statusBusy = true ∧ (k < 16 ∨ 20 ≤ k → 4 * k < 0x040 ∨ 0x050 ≤ 4 * k) := by
  decide

theorem witness_RegisterWritesTakeEffect :
    ∀ off ∈ [0x008, 0x00C, 0x010, 0x014, 0x018, 0x01C],
      (given [.access (.write .reg off 4 0xFFFFFFFF)] (running .nop [])).inputs =
        [.access (.write .reg off 4 0xFFFFFFFF)] := by decide

/-- The ends of each range of read-only and reserved offsets. -/
theorem witness_ReadOnlyWritesAreIgnored :
    ∀ off ∈ [0x000, 0x020, 0x03C, 0x050, 0x0FC],
      (given [.access (.write .reg off 4 1)] State.reset).inputs = [.access (.write .reg off 4 1)] ∧
      off % 4 = 0 ∧ off < 0x100 ∧ (off = 0x000 ∨ (0x020 ≤ off ∧ off ≤ 0x03C) ∨ 0x050 ≤ off) := by
  decide

theorem witness_BlockRegisterWriteReplacesFourLanes :
    ∀ i : Fin 4, (given [.access (.write .reg (0x040 + 4 * i.val) 4 0x44434241)] State.reset).inputs =
        [.access (.write .reg (0x040 + 4 * i.val) 4 0x44434241)] ∧
      State.reset.statusBusy = false := by decide

/-- The last byte, halfword and word of BUFMEM. -/
theorem witness_BufferWriteIsLittleEndian :
    ∀ p ∈ [(0x3FF, 1), (0x3FE, 2), (0x3FC, 4)],
      (given [.access (.write .buf p.1 p.2 0x44434241)] State.reset).inputs =
        [.access (.write .buf p.1 p.2 0x44434241)] ∧
      (p.2 = 1 ∨ p.2 = 2 ∨ p.2 = 4) ∧ p.1 % p.2 = 0 ∧ p.1 + p.2 ≤ State.reset.cfg.bufSize ∧
      State.reset.statusBusy = false := by decide

/-- A read of written bytes, and one of bytes that nothing has written. -/
theorem witness_BufferReadIsLittleEndian :
    ∀ off ∈ [0, 0x3FC],
      (given [.access (.read .buf off 4)] (idleWith [1, 2, 3, 4])).inputs =
        [.access (.read .buf off 4)] ∧
      off % 4 = 0 ∧ off + 4 ≤ (idleWith [1, 2, 3, 4]).cfg.bufSize ∧
      (idleWith [1, 2, 3, 4]).statusBusy = false ∧
      (idleWith [1, 2, 3, 4]).mem.get 3 = some 4 := by decide

theorem witness_BufferWriteWhileBusyIsDiscarded :
    (given [.access (.write .buf 0x3FE 2 1)] (running .nop [])).inputs =
        [.access (.write .buf 0x3FE 2 1)] ∧
      (running .nop []).statusBusy = true ∧ 0x3FE % 2 = 0 ∧
      0x3FE + 2 ≤ (running .nop []).cfg.bufSize ∧
      (given [.access (.write .reg 0x04C 4 1)] (running .nop [])).inputs =
        [.access (.write .reg 0x04C 4 1)] := by decide

theorem witness_BufferReadWhileBusyHasNoEffect :
    (given [.access (.read .buf 0x3FE 2)] (running .nop [])).inputs = [.access (.read .buf 0x3FE 2)] ∧
      (running .nop []).statusBusy = true ∧ 0x3FE % 2 = 0 ∧
      0x3FE + 2 ≤ (running .nop []).cfg.bufSize ∧
      (given [.access (.read .reg 0x040 4)] (running .nop [])).inputs =
        [.access (.read .reg 0x040 4)] := by decide

theorem witness_HostCannotDisturbARunningOperation :
    (given [.access (.write .reg 0x014 4 9)] (running .xlEnc [1])).inputs =
        [.access (.write .reg 0x014 4 9)] ∧ (running .xlEnc [1]).statusBusy = true := by decide

theorem witness_BlockStepsIgnoreTheHostRegisters :
    (running .xlEnc [1]).statusBusy = true ∧ ∃ t, exec .xlEnc (running .xlEnc [1]) = .next t :=
  ⟨by decide, _, rfl⟩

/-- Acceptance, and completion, with DONEIE = 1 and ERRIE = 0. -/
theorem witness_InterruptFollowsTheOperation :
    ({ State.reset with doneIE := true }).statusBusy = false ∧
      view (fun t => t.statusBusy) (exec .nop { State.reset with doneIE := true }) = some true ∧
      ({ running .nop [] with doneIE := true }).statusBusy = true ∧
      ({ running .nop [] with doneIE := true }).errIE = false ∧
      view (fun t => t.statusBusy) (exec .nop { running .nop [] with doneIE := true }) =
        some false := by decide

theorem witness_ResetInputRestoresEveryRegister :
    (given [.reset] (running .xlEnc [1])).inputs = [.reset] := by decide

/-- The reference placement, and two windows that touch. -/
theorem witness_HostAddressesReachTheirRegion :
    (Config.reference.regBase + 0x100 ≤ Config.reference.bufBase) ∧
      (⟨16, 0x110, 0x100⟩ : Config).bufBase + (⟨16, 0x110, 0x100⟩ : Config).bufSize ≤
        (⟨16, 0x110, 0x100⟩ : Config).regBase := by decide

theorem witness_EncodeProcedureWritesBase64 :
    State.reset.cfg.wf = true ∧ State.reset.statusBusy = false ∧ 3 = outLen .rpkEnc 2 ∧
      (given (encodeProcedure 0 0x100 0x200 [0x4D, 0x61] [] [0, 2]) State.reset).inputs =
        encodeProcedure 0 0x100 0x200 [0x4D, 0x61] [] [0, 2] ∧
      0 + 2 ≤ State.reset.cfg.bufSize ∧ 0x100 + 3 ≤ State.reset.cfg.bufSize ∧
      0x200 + (3 + 2) ≤ State.reset.cfg.bufSize ∧ RangesDisjoint 0 2 0x100 3 ∧
      RangesDisjoint 0 2 0x200 (3 + 2) ∧ RangesDisjoint 0x100 3 0x200 (3 + 2) := by
  unfold RangesDisjoint; decide

/-- The text "TQ=" is not well-formed Base64. -/
theorem witness_DecodeProcedureRunsOnEveryText :
    State.reset.cfg.wf = true ∧ State.reset.statusBusy = false ∧ 2 = (3 * 3) / 4 ∧
      (given (decodeProcedure 0 0x100 0x200 [0x54, 0x51, 0x3D] [] [0, 2]) State.reset).inputs =
        decodeProcedure 0 0x100 0x200 [0x54, 0x51, 0x3D] [] [0, 2] ∧
      0 + 3 ≤ State.reset.cfg.bufSize ∧ 0x100 + 3 ≤ State.reset.cfg.bufSize ∧
      0x200 + 2 ≤ State.reset.cfg.bufSize ∧ RangesDisjoint 0 3 0x100 3 ∧ RangesDisjoint 0 3 0x200 2 ∧
      RangesDisjoint 0x100 3 0x200 2 := by
  unfold RangesDisjoint; decide

/-- V-HO: "TQ==" and "TQ" are the padded and the unpadded text of 4D. -/
theorem witness_DecodeProcedureInvertsEncode :
    State.reset.cfg.wf = true ∧ State.reset.statusBusy = false ∧
      [0x54, 0x51, 0x3D, 0x3D] = base64Text [0x4D] ∧
      [0x54, 0x51] = (base64Text [0x4D]).take (outLen .rpkEnc 1) ∧ 3 = (3 * 4) / 4 ∧
      (given (decodeProcedure 0 0x100 0x200 [0x54, 0x51, 0x3D, 0x3D] [] [0, 2]) State.reset).inputs =
        decodeProcedure 0 0x100 0x200 [0x54, 0x51, 0x3D, 0x3D] [] [0, 2] ∧
      0 + 4 ≤ State.reset.cfg.bufSize ∧ 0x100 + 4 ≤ State.reset.cfg.bufSize ∧
      0x200 + 3 ≤ State.reset.cfg.bufSize ∧ RangesDisjoint 0 4 0x100 4 ∧ RangesDisjoint 0 4 0x200 3 ∧
      RangesDisjoint 0x100 4 0x200 3 := by
  unfold RangesDisjoint; decide

end Sys2Proof.Tests
end

section
/-! The interrupt output (R55) and the reset input (R65, R340–R342): what each makes of the state. -/

namespace Sys2Proof.Machine

/-! ### The interrupt output -/

theorem statusErr_iff (s : State) : s.statusErr = true ↔ s.err ≠ 0 := bne_iff_ne

theorem irq_iff (s : State) : s.irq = true ↔
    (s.statusDone = true ∧ s.doneIE = true) ∨ (s.err ≠ 0 ∧ s.errIE = true) := by
  simp only [State.irq, Bool.or_eq_true, Bool.and_eq_true, statusErr_iff]

/-- Settles O53: STATUS.ERR is "ERR is not 0" (R39), so R55's formula is the definition of IRQ. -/
theorem interruptOutput : Obligations.InterruptOutput := irq_iff

/-! ### The reset input: the block's registers, then what is not the block's -/

@[simp] theorem resetBlock_statusBusy (s : State) : (resetBlock s).statusBusy = false := rfl
@[simp] theorem resetBlock_statusDone (s : State) : (resetBlock s).statusDone = false := rfl
@[simp] theorem resetBlock_lastOp (s : State) : (resetBlock s).lastOp = .nop := rfl
@[simp] theorem resetBlock_err (s : State) : (resetBlock s).err = 0 := rfl
@[simp] theorem resetBlock_doneIE (s : State) : (resetBlock s).doneIE = false := rfl
@[simp] theorem resetBlock_errIE (s : State) : (resetBlock s).errIE = false := rfl
@[simp] theorem resetBlock_src (s : State) : (resetBlock s).src = 0 := rfl
@[simp] theorem resetBlock_dst (s : State) : (resetBlock s).dst = 0 := rfl
@[simp] theorem resetBlock_len (s : State) : (resetBlock s).len = 0 := rfl
@[simp] theorem resetBlock_outlen (s : State) : (resetBlock s).outlen = 0 := rfl
@[simp] theorem resetBlock_progress (s : State) : (resetBlock s).progress = 0 := rfl
@[simp] theorem resetBlock_ecur (s : State) : (resetBlock s).ecur = 0 := rfl
@[simp] theorem resetBlock_dcur (s : State) : (resetBlock s).dcur = 0 := rfl
@[simp] theorem resetBlock_eph (s : State) : (resetBlock s).eph = 0b00 := rfl
@[simp] theorem resetBlock_dlh (s : State) : (resetBlock s).dlh = 0b11 := rfl
@[simp] theorem resetBlock_blk0 (s : State) : (resetBlock s).blk0 = 0 := rfl
@[simp] theorem resetBlock_blk1 (s : State) : (resetBlock s).blk1 = 0 := rfl
@[simp] theorem resetBlock_blk2 (s : State) : (resetBlock s).blk2 = 0 := rfl
@[simp] theorem resetBlock_blk3 (s : State) : (resetBlock s).blk3 = 0 := rfl
@[simp] theorem resetBlock_opL (s : State) : (resetBlock s).opL = .nop := rfl
@[simp] theorem resetBlock_srcL (s : State) : (resetBlock s).srcL = 0 := rfl
@[simp] theorem resetBlock_dstL (s : State) : (resetBlock s).dstL = 0 := rfl
@[simp] theorem resetBlock_lenL (s : State) : (resetBlock s).lenL = 0 := rfl
@[simp] theorem resetBlock_mem (s : State) : (resetBlock s).mem = [] := rfl

@[simp] theorem resetBlock_cfg (s : State) : (resetBlock s).cfg = s.cfg := rfl
@[simp] theorem resetBlock_draws (s : State) : (resetBlock s).draws = s.draws := rfl
@[simp] theorem resetBlock_inputs (s : State) : (resetBlock s).inputs = s.inputs := rfl
@[simp] theorem resetBlock_bus (s : State) : (resetBlock s).bus = s.bus := rfl

/-- After the reset input every register reads as it does in the state `State.reset`. -/
theorem readRegister_resetBlock (off : Nat) (s : State) :
    readRegister off (resetBlock s) = readRegister off State.reset := rfl

/-- The reset input takes DONEIE and ERRIE to 0, and IRQ with them (R55). -/
theorem irq_resetBlock (s : State) : (resetBlock s).irq = false := by
  simp [State.irq]

theorem step_reset {s : State} {rest : List Input} (h : s.inputs = .reset :: rest) :
    step s = .next (resetBlock { s with inputs := rest }) := by
  simp [step, nextStep, h]

/-- Settles O55: the step is `resetBlock`, whose fields are the values of R65; the words read at the
map's offsets are those of `State.reset`. -/
theorem resetInputRestoresEveryRegister : Obligations.ResetInputRestoresEveryRegister := by
  intro s rest h
  refine ⟨_, step_reset h, ?_⟩
  have hid : readRegister 0x000 State.reset = 0x0B640001 := rfl
  have hstatus : readRegister 0x008 State.reset = 0 := by decide
  have herr : readRegister 0x00C State.reset = 0 := by decide
  have hinten : readRegister 0x010 State.reset = 0 := by decide
  have hphase : readRegister 0x030 State.reset = 0x00000030 := by decide
  simp [irq_resetBlock, readRegister_resetBlock, hid, hstatus, herr, hinten, hphase]

end Sys2Proof.Machine
end

section
/-! Decoding of a command word (R121–R125): the fields of a word, the opcode table read backwards, and
the three answers of `decode`. -/

namespace Sys2Proof

/-! ### The fields of a command word -/

theorem rsvField_append_opField (w : Word) : rsvField w ++ opField w = w := by
  calc rsvField w ++ opField w
      = w.extractLsb' 0 (28 + 4) := BitVec.extractLsb'_append_extractLsb'_eq_extractLsb' rfl
    _ = w := BitVec.extractLsb'_eq_self

theorem toNat_opField (w : Word) : (opField w).toNat = w.toNat % 16 := by simp [opField]

theorem toNat_rsvField (w : Word) : (rsvField w).toNat = w.toNat / 16 := by
  have := w.isLt
  rw [rsvField, BitVec.extractLsb'_toNat, Nat.shiftRight_eq_div_pow]
  omega

theorem rsvField_eq_zero_iff (w : Word) : rsvField w = 0#28 ↔ w.toNat / 16 = 0 := by
  simp [BitVec.toNat_eq, toNat_rsvField]

/-! ### The opcode table -/

theorem opcodeInstr_eq_some_iff (op : BitVec 4) (i : Instr) :
    opcodeInstr op = some i ↔ op = opcode i := by
  revert op; cases i <;> decide

theorem opcodeInstr_eq_none_iff (op : BitVec 4) : opcodeInstr op = none ↔ 7 ≤ op.toNat := by
  revert op; decide

/-! ### The three answers of the decoder -/

/-- The branches of `decode`, each with its answer. -/
theorem decode_cases (w : Word) :
    (rsvField w ≠ 0#28 ∧ decode w = .error .reservedBits) ∨
    (rsvField w = 0#28 ∧ opcodeInstr (opField w) = none ∧ decode w = .error .reservedOpcode) ∨
    (rsvField w = 0#28 ∧ ∃ i, opcodeInstr (opField w) = some i ∧ decode w = .ok i) := by
  by_cases hr : rsvField w = 0#28
  · cases ho : opcodeInstr (opField w) <;> simp [decode, hr, ho]
  · simp [decode, hr]

theorem decode_eq_reservedBits_iff (w : Word) :
    decode w = .error .reservedBits ↔ rsvField w ≠ 0#28 := by
  obtain ⟨hr, hd⟩ | ⟨hr, -, hd⟩ | ⟨hr, i, -, hd⟩ := decode_cases w <;> simp [hr, hd]

theorem decode_eq_reservedOpcode_iff (w : Word) :
    decode w = .error .reservedOpcode ↔ rsvField w = 0#28 ∧ opcodeInstr (opField w) = none := by
  obtain ⟨hr, hd⟩ | ⟨hr, ho, hd⟩ | ⟨hr, i, ho, hd⟩ := decode_cases w <;> simp [*]

theorem fields_of_decode_eq_ok {w : Word} {i : Instr} (h : decode w = .ok i) :
    rsvField w = 0#28 ∧ opField w = opcode i := by
  obtain ⟨-, hd⟩ | ⟨-, -, hd⟩ | ⟨hr, j, ho, hd⟩ := decode_cases w
  · simp [hd] at h
  · simp [hd] at h
  · obtain rfl : j = i := by simpa [hd] using h
    exact ⟨hr, (opcodeInstr_eq_some_iff _ _).mp ho⟩

/-- The shape lemmas of Laws/PerInstr for every command. -/
theorem encodingShape (i : Instr) : Laws.EncodingShape.Statement i := by
  cases i with
  | nop => exact Laws.EncodingShape.nop
  | xlEnc => exact Laws.EncodingShape.xlEnc
  | xlDec => exact Laws.EncodingShape.xlDec
  | xlEncB => exact Laws.EncodingShape.xlEncB
  | xlDecB => exact Laws.EncodingShape.xlDecB
  | rpkEnc => exact Laws.EncodingShape.rpkEnc
  | rpkDec => exact Laws.EncodingShape.rpkDec

theorem decode_encode (i : Instr) : decode (encode i) = .ok i := by
  obtain ⟨-, -, -, -, h, -⟩ := encodingShape i
  exact h

theorem decode_eq_ok_iff (w : Word) (i : Instr) : decode w = .ok i ↔ w = encode i := by
  constructor
  · intro h
    obtain ⟨hr, ho⟩ := fields_of_decode_eq_ok h
    calc w = rsvField w ++ opField w := (rsvField_append_opField w).symm
      _ = encode i := by rw [hr, ho]; rfl
  · rintro rfl
    exact decode_encode i

/-- Settles O1: a word is its two fields, so the check of RSV and the row of the opcode table that OP
names (R125) give each of the three answers. -/
theorem decodeReadsExactlyTheSevenWords : Obligations.DecodeReadsExactlyTheSevenWords := by
  intro w
  refine ⟨decode_eq_ok_iff w, ?_, ?_⟩
  · rw [decode_eq_reservedBits_iff, Ne, rsvField_eq_zero_iff]
  · rw [decode_eq_reservedOpcode_iff, rsvField_eq_zero_iff, opcodeInstr_eq_none_iff, toNat_opField]

end Sys2Proof
end

section
/-! The course of a command: its output length (R153) and its completion step (R159). -/

namespace Sys2Proof.Machine

/-! ### Output lengths -/

/-- RPK.ENC emits one Symbol per 6 bits of its `8 * n`, a partial group included (R153, R237). -/
theorem outLen_rpkEnc_eq_ceil (n : Nat) :
    ((outLen .rpkEnc n : Nat) : Int) = ⌈(8 * n : Rat) / 6⌉ := by
  have hceil : ⌈(8 * n : Rat) / 6⌉ = -(-(8 * n : Int) / 6) := by
    exact_mod_cast Rat.ceil_natCast_div_natCast (8 * n) 6
  rw [hceil, outLen]
  omega

/-- RPK.DEC emits one byte per 8 bits of its `6 * n`, whole bytes only (R153, R244). -/
theorem outLen_rpkDec_eq_floor (n : Nat) :
    ((outLen .rpkDec n : Nat) : Int) = ⌊(6 * n : Rat) / 8⌋ := by
  have hfloor : ⌊(6 * n : Rat) / 8⌋ = (6 * n : Int) / 8 := by
    exact_mod_cast Rat.floor_natCast_div_natCast (6 * n) 8
  rw [hfloor, outLen]
  omega

/-- Settles O7: the closed forms are the rows of `outLen`; the repacker's two are the ceiling and the
floor of the bit count over the width of an output cell. -/
theorem outputLengths : Obligations.OutputLengths := fun n =>
  ⟨rfl, rfl, rfl, rfl, rfl, rfl, outLen_rpkEnc_eq_ceil n, rfl, outLen_rpkDec_eq_floor n⟩

/-! ### The completion step -/

/-- A busy block whose PROGRESS has reached OUTLEN completes, whatever the command (R157). -/
theorem exec_finished (i : Instr) {s : State} (h : s.statusBusy = true)
    (hp : ¬s.progress.toNat < s.outlen.toNat) : exec i s = .next (complete s) := by
  rw [exec_eq_lifecycle, lifecycle_finished h hp]

/-- Settles O16: the step is `complete`, which is the two assignments of R159. -/
theorem completionStep : Obligations.CompletionStep := fun i _ h hp => exec_finished i h hp

end Sys2Proof.Machine
end

section
/-! The lane functions TE and TD (R181–R187): the OR reduction picks the offset of the one range that
matches, so that each row of the range table is carried onto the other side of the table. -/

namespace Sys2Proof.Machine

/-! ### The OR reduction (R183, R184) -/

/-- The OR reduction of R183 over the rows of a table: offset `o` masked by the bounds `[lo, hi)`. -/
def orReduction (lo hi : LaneRange → Nat) (o : LaneRange → Byte) (rows : List LaneRange)
    (v : Byte) : Byte :=
  rows.foldr (fun r acc => (o r &&& laneMask (lo r) (hi r) v) ||| acc) 0

theorem te_eq (v : Byte) :
    te v = v + orReduction LaneRange.slo LaneRange.shi encOffset rangeTable v := rfl

theorem td_eq (c : Byte) :
    td c = c + orReduction LaneRange.clo LaneRange.chi decOffset rangeTable c := rfl

section
variable {lo hi : LaneRange → Nat} {o : LaneRange → Byte} {rows : List LaneRange} {r : LaneRange}
  {v : Byte}

theorem orReduction_cons_of_mem (h : lo r ≤ v.toNat ∧ v.toNat < hi r) :
    orReduction lo hi o (r :: rows) v = o r ||| orReduction lo hi o rows v := by
  have hmask : laneMask (lo r) (hi r) v = BitVec.allOnes 8 := if_pos h
  rw [orReduction, List.foldr_cons, hmask, BitVec.and_allOnes, orReduction]

theorem orReduction_cons_of_not_mem (h : ¬(lo r ≤ v.toNat ∧ v.toNat < hi r)) :
    orReduction lo hi o (r :: rows) v = orReduction lo hi o rows v := by
  have hmask : laneMask (lo r) (hi r) v = 0#8 := if_neg h
  simp [orReduction, hmask]

theorem orReduction_eq_zero (h : ∀ r ∈ rows, ¬(lo r ≤ v.toNat ∧ v.toNat < hi r)) :
    orReduction lo hi o rows v = 0 := by
  induction rows with
  | nil => rfl
  | cons q rows ih =>
    rw [List.forall_mem_cons] at h
    rw [orReduction_cons_of_not_mem h.1, ih h.2]

/-- R184: of pairwise disjoint ranges only the matching one contributes. -/
theorem orReduction_eq_offset (hdisj : rows.Pairwise (fun q r => hi q ≤ lo r ∨ hi r ≤ lo q))
    (hr : r ∈ rows) (hv : lo r ≤ v.toNat ∧ v.toNat < hi r) : orReduction lo hi o rows v = o r := by
  induction rows with
  | nil => cases hr
  | cons q rows ih =>
    rw [List.pairwise_cons] at hdisj
    obtain ⟨hq, hrows⟩ := hdisj
    rcases List.mem_cons.mp hr with rfl | hr
    · have hrest : ∀ q ∈ rows, ¬(lo q ≤ v.toNat ∧ v.toNat < hi q) := by
        intro q hmem
        have := hq q hmem
        omega
      rw [orReduction_cons_of_mem hv, orReduction_eq_zero hrest]
      exact BitVec.or_zero
    · have hdisjoint := hq r hr
      rw [orReduction_cons_of_not_mem (by omega), ih hrows hr]

end

/-- Adding an offset modulo 256 is adding it over the integers when the sum is a byte. -/
theorem toNat_add_ofInt {v : Byte} {d : Int} {n : Nat} (h : (v.toNat : Int) + d = n) (hn : n < 256) :
    (v + BitVec.ofInt 8 d).toNat = n := by
  rw [BitVec.toNat_add, BitVec.toNat_ofInt]
  omega

/-! ### The range table (R181) -/

/-- The two ranges of a row are equally wide, and both lie inside 0..127. -/
theorem rangeTable_row {r : LaneRange} (hr : r ∈ rangeTable) :
    r.slo + r.chi = r.clo + r.shi ∧ r.shi ≤ 128 ∧ r.chi ≤ 128 := by
  revert r; decide

theorem mem_rangeTable_iff (r : LaneRange) : r ∈ rangeTable ↔
    r = ⟨0, 26, 65, 91⟩ ∨ r = ⟨26, 52, 97, 123⟩ ∨ r = ⟨52, 62, 48, 58⟩ ∨ r = ⟨62, 63, 43, 44⟩ ∨
      r = ⟨63, 64, 47, 48⟩ := by
  simp [rangeTable]

theorem symbolRanges_disjoint :
    rangeTable.Pairwise (fun q r => q.shi ≤ r.slo ∨ r.shi ≤ q.slo) := by decide

theorem charRanges_disjoint :
    rangeTable.Pairwise (fun q r => q.chi ≤ r.clo ∨ r.chi ≤ q.clo) := by decide

/-- The Symbol ranges cover 0..63 and nothing else. -/
theorem exists_symbolRange_iff (v : Byte) :
    (∃ r ∈ rangeTable, r.slo ≤ v.toNat ∧ v.toNat < r.shi) ↔ v.toNat < 64 := by
  simp only [mem_rangeTable_iff, or_and_right, exists_or, exists_eq_left]
  omega

/-! ### The lane functions on a row and outside the table -/

theorem toNat_te_of_row {r : LaneRange} {v : Byte} (hr : r ∈ rangeTable)
    (hv : r.slo ≤ v.toNat ∧ v.toNat < r.shi) : (te v).toNat = v.toNat - r.slo + r.clo := by
  obtain ⟨hwidth, -, hchi⟩ := rangeTable_row hr
  rw [te_eq, orReduction_eq_offset symbolRanges_disjoint hr hv]
  exact toNat_add_ofInt (by omega) (by omega)

theorem toNat_td_of_row {r : LaneRange} {c : Byte} (hr : r ∈ rangeTable)
    (hc : r.clo ≤ c.toNat ∧ c.toNat < r.chi) : (td c).toNat = c.toNat - r.clo + r.slo := by
  obtain ⟨hwidth, hshi, -⟩ := rangeTable_row hr
  rw [td_eq, orReduction_eq_offset charRanges_disjoint hr hc]
  exact toNat_add_ofInt (by omega) (by omega)

theorem te_of_no_row {v : Byte} (h : ¬∃ r ∈ rangeTable, r.slo ≤ v.toNat ∧ v.toNat < r.shi) :
    te v = v := by
  rw [te_eq, orReduction_eq_zero fun r hr hv => h ⟨r, hr, hv⟩]
  exact BitVec.add_zero v

theorem td_of_no_row {c : Byte} (h : ¬∃ r ∈ rangeTable, r.clo ≤ c.toNat ∧ c.toNat < r.chi) :
    td c = c := by
  rw [td_eq, orReduction_eq_zero fun r hr hc => h ⟨r, hr, hc⟩]
  exact BitVec.add_zero c

/-! ### The closed forms (R185, R186) -/

/-- Settles O19: a byte below 64 lies in one of the five Symbol ranges and moves with it; any other
byte lies in none. -/
theorem encodeLaneClosedForm : Obligations.EncodeLaneClosedForm := by
  intro v
  by_cases h : ∃ r ∈ rangeTable, r.slo ≤ v.toNat ∧ v.toNat < r.shi
  · obtain ⟨r, hr, hv⟩ := h
    rw [toNat_te_of_row hr hv]
    rcases (mem_rangeTable_iff r).mp hr with rfl | rfl | rfl | rfl | rfl <;> grind
  · rw [te_of_no_row h]
    rw [exists_symbolRange_iff] at h
    grind

/-- Settles O20: a character in one of the five character ranges moves with its range; any other byte
lies in none. -/
theorem decodeLaneClosedForm : Obligations.DecodeLaneClosedForm := by
  intro c
  by_cases h : ∃ r ∈ rangeTable, r.clo ≤ c.toNat ∧ c.toNat < r.chi
  · obtain ⟨r, hr, hc⟩ := h
    rw [toNat_td_of_row hr hc]
    rcases (mem_rangeTable_iff r).mp hr with rfl | rfl | rfl | rfl | rfl <;> grind
  · rw [td_of_no_row h]
    simp only [mem_rangeTable_iff, or_and_right, exists_or, exists_eq_left] at h
    grind

/-! ### The bijection onto the alphabet (R187) -/

/-- TE carries a Symbol to the same place of its row's character range, and TD carries it back. -/
theorem td_te {v : Byte} (hv : v.toNat < 64) : td (te v) = v := by
  obtain ⟨r, hr, hrow⟩ := (exists_symbolRange_iff v).mpr hv
  obtain ⟨hwidth, -⟩ := rangeTable_row hr
  have hte := toNat_te_of_row hr hrow
  apply BitVec.eq_of_toNat_eq
  rw [toNat_td_of_row hr (by omega), hte]
  omega

/-- The alphabet is the Symbols 0..63 in their order, under TE. -/
theorem alphabet_eq_map_te : alphabet = (List.range 64).map (fun k => te (BitVec.ofNat 8 k)) := by
  decide

theorem mem_alphabet_iff (c : Byte) : c ∈ alphabet ↔ ∃ v : Byte, v.toNat < 64 ∧ te v = c := by
  simp only [alphabet_eq_map_te, List.mem_map, List.mem_range]
  constructor
  · rintro ⟨k, hk, rfl⟩
    exact ⟨BitVec.ofNat 8 k, by rw [BitVec.toNat_ofNat]; omega, rfl⟩
  · rintro ⟨v, hv, rfl⟩
    exact ⟨v.toNat, hv, by rw [BitVec.ofNat_toNat, BitVec.setWidth_eq]⟩

theorem alphabet_getElem?_toNat {v : Byte} (hv : v.toNat < 64) : alphabet[v.toNat]? = some (te v) := by
  simp [alphabet_eq_map_te, hv]

/-- The 64 characters are distinct, since TD tells them apart. -/
theorem alphabet_nodup : alphabet.Nodup := by
  rw [alphabet_eq_map_te]
  refine List.Nodup.map_on (fun j hj k hk h => ?_) List.nodup_range
  rw [List.mem_range] at hj hk
  have hjk : BitVec.ofNat 8 j = BitVec.ofNat 8 k := by
    rw [← td_te (v := BitVec.ofNat 8 j) (by rw [BitVec.toNat_ofNat]; omega), h, td_te]
    rw [BitVec.toNat_ofNat]; omega
  have := congrArg BitVec.toNat hjk
  simp only [BitVec.toNat_ofNat] at this
  omega

/-- Settles O21: TD undoes TE row by row, and every character of the alphabet is TE of a Symbol. -/
theorem laneFunctionsAreInverse : Obligations.LaneFunctionsAreInverse := by
  refine ⟨rfl, alphabet_nodup, fun v hv => ⟨td_te hv, alphabet_getElem?_toNat hv⟩, fun c hc => ?_⟩
  obtain ⟨v, hv, rfl⟩ := (mem_alphabet_iff c).mp hc
  rw [td_te hv]
  exact ⟨rfl, hv⟩

end Sys2Proof.Machine
end

section
/-! The encode direction of the Bit Repacker, one Symbol at a time (R233–R240): the cursor's four phases,
what a micro-step writes, and that it is a Symbol. -/

namespace Sys2Proof.Machine

/-! ### The phase cycle (R236) -/

/-- Settles O27: the cursor after a Symbol is `encode_cursor_step`, read off in each phase; the
bit_index is arithmetic. -/
theorem encodePhaseCycle : Obligations.EncodePhaseCycle := by
  have h0 : bitsFromLast 0b00 = 0 := rfl
  have h1 : bitsFromLast 0b01 = 2 := rfl
  have h2 : bitsFromLast 0b10 = 4 := rfl
  have h3 : bitsFromLast 0b11 = -2 := rfl
  refine ⟨h0, h1, h2, h3, fun i => ?_⟩
  rw [h0, h1, h2, h3]
  exact ⟨⟨by omega, by omega, encode_cursor_step i 0b00⟩,
    ⟨by omega, by omega, encode_cursor_step i 0b01⟩,
    ⟨by omega, by omega, encode_cursor_step i 0b10⟩,
    ⟨by omega, by omega, encode_cursor_step i 0b11⟩⟩

/-! ### The Symbols (R233, R240) -/

/-- Each formula of R233 yields at most 6 bits: a shift right by 2 or a mask drops bits 7:6. -/
theorem symbolOf_toNat_lt (eph : BitVec 2) (p c : Byte) : (symbolOf eph p c).toNat < 64 := by
  have shifted (k : Nat) (hk : 2 ≤ k) : (c >>> k).toNat < 2 ^ 6 := by
    rw [BitVec.toNat_ushiftRight, Nat.shiftRight_eq_div_pow]
    refine Nat.div_lt_of_lt_mul (c.isLt.trans_le ?_)
    exact Nat.mul_le_mul_right (2 ^ 6) (Nat.pow_le_pow_right two_pos hk)
  have masked (v m : Byte) (hm : m.toNat < 2 ^ 6) : (v &&& m).toNat < 2 ^ 6 :=
    Nat.and_lt_two_pow _ hm
  unfold symbolOf
  split
  · exact shifted 2 le_rfl
  · rw [BitVec.toNat_or]
    exact Nat.or_lt_two_pow (masked _ _ (by decide)) (shifted 4 (by decide))
  · rw [BitVec.toNat_or]
    exact Nat.or_lt_two_pow (masked _ _ (by decide)) (shifted 6 (by decide))
  · exact masked _ _ (by decide)

/-- A micro-step of RPK.ENC that answers a next state wrote a Symbol at the destination cell of
PROGRESS, and no other cell (R239). -/
theorem emitSymbol_mem {s t : State} (h : emitSymbol s = .next t) :
    ∃ p c : Byte, t.mem = s.mem.set (s.dstL.toNat + s.progress.toNat) (symbolOf s.eph p c) := by
  unfold emitSymbol at h
  split at h
  · cases h
  · rename_i p _ hprior
    obtain ⟨_, rfl⟩ := readPriorIfUsed_frame hprior
    split at h
    · cases h
    · rename_i c _ hsource
      obtain ⟨_, rfl⟩ := readSource_frame hsource
      split at h
      · cases h
      · rename_i hwrite
        obtain ⟨-, rfl⟩ := memWrite_frame hwrite
        cases h
        exact ⟨p, c, rfl⟩

/-- Settles O29: the micro-step wrote the cell, and what it wrote is a value of `symbolOf`. -/
theorem repackEncodeWritesSymbols : Obligations.RepackEncodeWritesSymbols := by
  intro s t b hbusy hprogress hstep hb
  rw [exec_eq_lifecycle, lifecycle_micro hbusy hprogress] at hstep
  obtain ⟨p, c, hmem⟩ := emitSymbol_mem hstep
  rw [hmem, Memory.get_set_self, Option.some.injEq] at hb
  rw [← hb]
  exact symbolOf_toNat_lt s.eph p c

end Sys2Proof.Machine
end

section
/-! The bit streams of cells (R10): RPK.ENC keeps the stream of its source (R230), RPK.DEC keeps the stream
of Symbol cells (R246), and so the second undoes the first (R247). -/

namespace Sys2Proof.Machine

/-- A Symbol has no bit above bit 5. -/
theorem getLsbD_eq_false_of_symbol {v : Byte} {i : Nat} (hv : v.toNat < 64) (hi : 6 ≤ i) :
    v.getLsbD i = false :=
  Nat.testBit_lt_two_pow (hv.trans_le (Nat.pow_le_pow_right two_pos hi))

/-! ### Fields of a stream -/

/-- Bit `i` of a field of `n` bits, counted from its last bit. -/
theorem streamField_testBit (w : Nat) (cells : List Byte) (j n i : Nat) :
    (streamField w cells j n).testBit i = (decide (i < n) && streamBit w cells (j + (n - 1 - i))) := by
  induction n generalizing i with
  | zero => simp [streamField]
  | succ n ih =>
    have hfield : streamField w cells j (n + 1) =
        Nat.bit (streamBit w cells (j + n)) (streamField w cells j n) := (Nat.bit_val _ _).symm
    rw [hfield]
    cases i with
    | zero => simp
    | succ i =>
      rw [Nat.testBit_bit_succ, ih, show n - 1 - i = n + 1 - 1 - (i + 1) by omega]
      simp

@[simp] theorem symbolsOf_length (bs : List Byte) :
    (symbolsOf bs).length = outLen .rpkEnc bs.length := by simp [symbolsOf]

@[simp] theorem repackedBytes_length (cells : List Byte) :
    (repackedBytes cells).length = outLen .rpkDec cells.length := by simp [repackedBytes]

@[simp] theorem bytesOfSymbols_length (cells : List Byte) :
    (bytesOfSymbols cells).length = outLen .rpkDec cells.length := by simp [bytesOfSymbols]

/-- Bit `i` of Symbol `k` is bit `6k + 5 - i` of the source's stream (R230). -/
theorem symbolsOf_getLsbD (bs : List Byte) {k i : Nat} (hk : k < outLen .rpkEnc bs.length) :
    ((symbolsOf bs).getD k 0).getLsbD i = (decide (i < 6) && streamBit 8 bs (6 * k + (5 - i))) := by
  have hbyte : i < 6 → i < 8 := by omega
  simp only [symbolsOf, List.getD, List.getElem?_map, List.getElem?_range hk, Option.map_some,
    Option.getD_some, BitVec.getLsbD_ofNat, streamField_testBit]
  by_cases hi : i < 6 <;> simp [hi, hbyte]

/-- Bit `i` of byte `t` is bit `8t + 7 - i` of the stream of the cells' low 6 bits (R246). -/
theorem bytesOfSymbols_getLsbD (cells : List Byte) {t i : Nat}
    (ht : t < outLen .rpkDec cells.length) :
    ((bytesOfSymbols cells).getD t 0).getLsbD i =
      (decide (i < 8) && streamBit 6 cells (8 * t + (7 - i))) := by
  simp only [bytesOfSymbols, List.getD, List.getElem?_map, List.getElem?_range ht, Option.map_some,
    Option.getD_some, BitVec.getLsbD_ofNat, streamField_testBit]
  by_cases hi : i < 8 <;> simp [hi]

/-! ### The Symbol of a phase -/

/-- The formulas of R233 in one: a Symbol's bits are those of the two source bytes, taken `o` places
higher. -/
theorem symbolOf_getLsbD (p c : Byte) {k i o : Nat} (ho : o = (2 * k + 2) % 8) (hi : i < 6) :
    (symbolOf (BitVec.ofNat 2 k) p c).getLsbD i =
      if i + o < 8 then c.getLsbD (i + o) else p.getLsbD (i + o - 8) := by
  subst ho
  have heph : (BitVec.ofNat 2 k).toNat = k % 4 := by simp
  have hk : k % 4 = 0 ∧ (2 * k + 2) % 8 = 2 ∨ k % 4 = 1 ∧ (2 * k + 2) % 8 = 4 ∨
      k % 4 = 2 ∧ (2 * k + 2) % 8 = 6 ∨ k % 4 = 3 ∧ (2 * k + 2) % 8 = 0 := by omega
  unfold symbolOf
  rw [heph]
  obtain ⟨hk, ho⟩ | ⟨hk, ho⟩ | ⟨hk, ho⟩ | ⟨hk, ho⟩ := hk <;> rw [hk, ho] <;>
    interval_cases i <;> simp

/-- In the phase of Symbol `k` the formula of R233 selects bits `6k` to `6k + 5` of the source's
stream. -/
theorem symbolOf_eq_symbolsOf (bs : List Byte) {k : Nat} (hk : k < outLen .rpkEnc bs.length) :
    symbolOf (BitVec.ofNat 2 k) (bs.getD ((6 * k + 5) / 8 - 1) 0) (bs.getD ((6 * k + 5) / 8) 0) =
      (symbolsOf bs).getD k 0 := by
  apply BitVec.eq_of_getLsbD_eq
  intro i _
  rw [symbolsOf_getLsbD bs hk]
  by_cases hi : i < 6
  · rw [symbolOf_getLsbD _ _ rfl hi]
    simp only [streamBit, hi, decide_true, Bool.true_and]
    split
    · rw [show (6 * k + (5 - i)) / 8 = (6 * k + 5) / 8 by omega]
      congr 1; omega
    · rw [show (6 * k + (5 - i)) / 8 = (6 * k + 5) / 8 - 1 by omega]
      congr 1; omega
  · simp only [hi, decide_false, Bool.false_and]
    exact getLsbD_eq_false_of_symbol (symbolOf_toNat_lt _ _ _) (by omega)

theorem symbolsOf_toNat_lt (bs : List Byte) : ∀ c ∈ symbolsOf bs, c.toNat < 64 := by
  intro c hc
  obtain ⟨k, hk, rfl⟩ := List.getElem_of_mem hc
  rw [← List.getD_eq_getElem _ 0 hk, ← symbolOf_eq_symbolsOf bs (by simpa using hk)]
  exact symbolOf_toNat_lt _ _ _

/-! ### The inverse (R247) -/

/-- RPK.ENC keeps the bit stream of its source; beyond either end both streams read 0. -/
theorem streamBit_symbolsOf (bs : List Byte) (j : Nat) :
    streamBit 6 (symbolsOf bs) j = streamBit 8 bs j := by
  by_cases hj : j / 6 < outLen .rpkEnc bs.length
  · rw [streamBit, symbolsOf_getLsbD bs hj]
    have hi : 6 - 1 - j % 6 < 6 := by omega
    have hpos : 6 * (j / 6) + (5 - (6 - 1 - j % 6)) = j := by omega
    simp [hi, hpos]
  · have hend : bs.length ≤ j / 8 := by simp only [outLen] at hj; omega
    simp [streamBit, List.getD, hend, not_lt.mp hj]

/-- On Symbols the formula of R242 selects bits `8t` to `8t + 7` of the cells' stream (R246). -/
theorem repackedBytes_of_symbols {cells : List Byte} (hsym : ∀ c ∈ cells, c.toNat < 64) :
    repackedBytes cells = bytesOfSymbols cells := by
  have hcell (k : Nat) : (cells.getD k 0).toNat < 64 := by
    rcases lt_or_ge k cells.length with hk | hk
    · rw [List.getD_eq_getElem _ _ hk]
      exact hsym _ (List.getElem_mem hk)
    · simp [List.getD, hk]
  refine List.ext_getElem (by simp) fun t ht ht' => ?_
  rw [← List.getD_eq_getElem (bytesOfSymbols cells) 0 ht']
  apply BitVec.eq_of_getLsbD_eq
  intro i hi
  rw [bytesOfSymbols_getLsbD cells (by simpa using ht), decide_eq_true hi, Bool.true_and, streamBit]
  simp only [repackedBytes, List.getElem_map, List.getElem_range, BitVec.getLsbD_or,
    BitVec.getLsbD_shiftLeft, BitVec.getLsbD_ushiftRight, hi, decide_true, Bool.true_and]
  by_cases hlow : i < 8 - (6 - 2 * (t % 3))
  · have hcell' : (8 * t + (7 - i)) / 6 = t + t / 3 + 1 := by omega
    simp only [hlow, decide_true, Bool.not_true, Bool.false_and, Bool.false_or, hcell']
    congr 1; omega
  · have hcell' : (8 * t + (7 - i)) / 6 = t + t / 3 := by omega
    rw [getLsbD_eq_false_of_symbol (hcell (t + t / 3 + 1)) (by omega), hcell']
    simp only [hlow, decide_false, Bool.not_false, Bool.true_and, Bool.or_false]
    congr 1; omega

/-- The Symbols of `n` bytes hold `n` whole bytes and fewer than 8 bits more (R153). -/
theorem outLen_rpkDec_rpkEnc (n : Nat) : outLen .rpkDec (outLen .rpkEnc n) = n := by
  simp only [outLen]; omega

theorem bytesOfSymbols_symbolsOf (bs : List Byte) : bytesOfSymbols (symbolsOf bs) = bs := by
  refine List.ext_getElem (by simp [outLen_rpkDec_rpkEnc]) fun t ht ht' => ?_
  rw [← List.getD_eq_getElem _ 0 ht]
  apply BitVec.eq_of_getLsbD_eq
  intro i hi
  rw [bytesOfSymbols_getLsbD _ (by simpa using ht), streamBit_symbolsOf, streamBit]
  have hbyte : (8 * t + (7 - i)) / 8 = t := by omega
  have hbit : 7 - (8 * t + (7 - i)) % 8 = i := by omega
  rw [hbyte, hbit, List.getD_eq_getElem _ _ ht', decide_eq_true hi, Bool.true_and]

end Sys2Proof.Machine
end

section
/-! The two repacker commands as a whole on a written source (R239, R246): the state after `k` micro-steps,
and the run of the block alone from acceptance to the completion step. -/

namespace Sys2Proof.Machine

/-! ### Writing a list cell by cell -/

theorem Memory.setBytes_concat (m : Memory) (a : Nat) (bs : List Byte) (b : Byte) :
    m.setBytes a (bs ++ [b]) = (m.setBytes a bs).set (a + bs.length) b := by
  induction bs generalizing m a with
  | nil => rfl
  | cons c bs ih =>
    rw [List.cons_append, Memory.setBytes_cons, Memory.setBytes_cons, ih, List.length_cons,
      Nat.add_assoc, Nat.add_comm 1]

theorem Memory.setBytes_take_succ (m : Memory) (a : Nat) {bs : List Byte} {k : Nat}
    (hk : k < bs.length) :
    m.setBytes a (bs.take (k + 1)) = (m.setBytes a (bs.take k)).set (a + k) (bs.getD k 0) := by
  rw [List.take_succ_eq_append_getElem hk, Memory.setBytes_concat, List.getD_eq_getElem _ _ hk,
    List.length_take_of_le hk.le]

theorem Memory.get_setBytes_take_outside (m : Memory) {a x n : Nat} {bs : List Byte} (k : Nat)
    (hx : x < a ∨ a + n ≤ x) (hn : bs.length = n) :
    (m.setBytes a (bs.take k)).get x = m.get x :=
  Memory.get_setBytes_outside _ _ _ _ (by have := List.length_take_le' k bs; omega)

/-! ### An operation that runs by the block alone -/

/-- With no input pending the block is busy from `s` until it is idle in `t`. -/
structure RunsAlone (s t : State) : Prop where
  no_input : s.inputs = []
  idle : t.statusBusy = false
  course : ∃ n, (∀ j, j < n → ∃ u, steps j s = .next u ∧ u.statusBusy = true) ∧ steps n s = .next t

/-- `f 0`, …, `f n` are the states of an operation of `d` between its `n` micro-steps. -/
structure MicroPath (d : Instr) (n : Nat) (f : Nat → State) : Prop where
  busy : ∀ k, k ≤ n → (f k).statusBusy = true
  no_input : ∀ k, k ≤ n → (f k).inputs = []
  latched : ∀ k, k ≤ n → (f k).opL = d
  unfinished : ∀ k, k < n → (f k).progress.toNat < (f k).outlen.toNat
  micro : ∀ k, k < n → microOf d (f k) = .next (f (k + 1))
  finished : (f n).outlen.toNat ≤ (f n).progress.toNat

section
variable {d : Instr} {n : Nat} {f : Nat → State}

theorem MicroPath.step_next (h : MicroPath d n f) {k : Nat} (hk : k < n) :
    step (f k) = .next (f (k + 1)) := by
  rw [step_no_input_busy (h.no_input k hk.le) (h.busy k hk.le), h.latched k hk.le, exec_eq_lifecycle,
    lifecycle_micro (h.busy k hk.le) (h.unfinished k hk), h.micro k hk]

theorem MicroPath.steps_next (h : MicroPath d n f) (k : Nat) (hk : k ≤ n) :
    steps k (f 0) = .next (f k) := by
  induction k with
  | zero => rfl
  | succ k ih => rw [steps_add 1 k _ (ih (by omega)), steps_succ 0 (h.step_next hk), steps_zero]

/-- After the micro-steps comes the completion step. -/
theorem MicroPath.steps_complete (h : MicroPath d n f) :
    steps (n + 1) (f 0) = .next (complete (f n)) := by
  have hlast : step (f n) = .next (complete (f n)) := by
    rw [step_no_input_busy (h.no_input n le_rfl) (h.busy n le_rfl),
      exec_finished _ (h.busy n le_rfl) (not_lt.mpr h.finished)]
  rw [steps_add 1 n _ (h.steps_next n le_rfl), steps_succ 0 hlast, steps_zero]

theorem MicroPath.runsAlone (h : MicroPath d n f) : RunsAlone (f 0) (complete (f n)) :=
  ⟨h.no_input 0 n.zero_le, rfl, n + 1,
    fun k hk => ⟨f k, h.steps_next k (by omega), h.busy k (by omega)⟩, h.steps_complete⟩

end

/-! ### An operation just accepted -/

/-- Cells `cells` at `a` as the source and `out` cells at `b` as the destination: the ranges fit and share
no byte (R154, R155), and the source is written. -/
structure OperandsAt (s : State) (a : Nat) (cells : List Byte) (b out : Nat) : Prop where
  src_fits : a + cells.length ≤ s.cfg.bufSize
  dst_fits : b + out ≤ s.cfg.bufSize
  disjoint : RangesDisjoint a cells.length b out
  written : Holds s.mem a cells

/-- `s` is just after the acceptance of `d` with the source `cells`, and the block alone moves. -/
structure Started (d : Instr) (s : State) (cells : List Byte) : Prop where
  busy : s.statusBusy = true
  no_input : s.inputs = []
  latched : s.opL = d
  len_eq : s.lenL.toNat = cells.length
  outlen_eq : s.outlen = BitVec.ofNat 32 (outLen d cells.length)
  progress_eq : s.progress = 0
  cfg_wf : s.cfg.wf = true
  operands : OperandsAt s s.srcL.toNat cells s.dstL.toNat (outLen d cells.length)

/-- Presenting a memory command with operands that pass the checks starts it (R151, R156). -/
theorem started_present {d : Instr} {s : State} {cells : List Byte} (hin : s.inputs = [])
    (hcfg : s.cfg.wf = true) (hlen : s.len.toNat = cells.length)
    (hops : OperandsAt s s.src.toNat cells s.dst.toNat (outLen d cells.length)) :
    present d s = accept d (outLen d cells.length) s ∧
      Started d (accept d (outLen d cells.length) s) cells := by
  obtain ⟨hsrc, hdst, hdisj, hmem⟩ := hops
  refine ⟨?_, ⟨rfl, hin, rfl, hlen, rfl, rfl, hcfg, ⟨hsrc, hdst, hdisj, hmem⟩⟩⟩
  rw [← hlen] at hsrc hdst hdisj ⊢
  exact present_accepts fun _ => ⟨hsrc, hdst, hdisj⟩

section
variable {d : Instr} {s : State} {cells result : List Byte}

theorem Started.toNat_counter (h : Started d s cells) {k : Nat} (hk : k ≤ outLen d cells.length) :
    (BitVec.ofNat 32 k).toNat = k := by
  have := (bounds_of_cfg_wf h.cfg_wf).2
  have := h.operands.dst_fits
  rw [BitVec.toNat_ofNat]
  omega

theorem Started.outlen_toNat (h : Started d s cells) : s.outlen.toNat = outLen d cells.length := by
  rw [h.outlen_eq, h.toNat_counter le_rfl]

/-- No destination cell that is written is a source cell. -/
theorem Started.source_get (h : Started d s cells) (hlen : result.length = outLen d cells.length)
    (k : Nat) {j : Nat} (hj : j < cells.length) :
    (s.mem.setBytes s.dstL.toNat (result.take k)).get (s.srcL.toNat + j) = some (cells.getD j 0) := by
  have hdisj := h.operands.disjoint
  by_cases hout : outLen d cells.length = 0
  · have : result = [] := List.length_eq_zero_iff.mp (hlen.trans hout)
    rw [this, List.take_nil, Memory.setBytes_nil, List.getD_eq_getElem _ _ hj]
    exact h.operands.written j hj
  · rw [Memory.get_setBytes_take_outside _ k (by unfold RangesDisjoint at hdisj; omega) hlen,
      List.getD_eq_getElem _ _ hj]
    exact h.operands.written j hj

end

/-! ### RPK.ENC -/

theorem readSource_of_sourceIs {k : Nat} {s : State} {b : Byte}
    (hfits : s.srcL.toNat + s.lenL.toNat ≤ s.cfg.bufSize) (hb : SourceIs s k b) :
    readSource k s = .ok (b, s) := by
  unfold readSource srcCell
  rcases hb with ⟨hk, hget⟩ | ⟨hk, rfl⟩
  · rw [if_pos hk, memRead_written (by omega) hget]
  · rw [if_neg (by omega)]

/-- Phases 0 and −2 take no bit of the prior byte (R233). -/
theorem symbolOf_of_not_usesPrior {eph : BitVec 2} (h : usesPrior eph = false) (p q c : Byte) :
    symbolOf eph p c = symbolOf eph q c := by
  have hphase : eph = 0b00 ∨ eph = 0b11 := by revert eph; decide
  rcases hphase with rfl | rfl <;> rfl

/-- A micro-step of RPK.ENC on source bytes that are all known draws nothing (R239). -/
theorem emitSymbol_of_sources {s : State} {p c : Byte}
    (hprior : usesPrior s.eph = true → 1 ≤ s.ecur.toNat)
    (hfits : s.srcL.toNat + s.lenL.toNat ≤ s.cfg.bufSize)
    (hdst : s.dstL.toNat + s.progress.toNat < s.cfg.bufSize)
    (hp : SourceIs s (s.ecur.toNat - 1) p) (hc : SourceIs s s.ecur.toNat c) :
    emitSymbol s = .next { s with
      mem := s.mem.set (s.dstL.toNat + s.progress.toNat) (symbolOf s.eph p c)
      progress := s.progress + 1
      ecur := BitVec.ofNat 32 (if s.eph = 0b10 then s.ecur.toNat else s.ecur.toNat + 1)
      eph := s.eph + 1 } := by
  obtain ⟨p', hread, hsym⟩ : ∃ p', readPriorIfUsed s = .ok (p', s) ∧
      symbolOf s.eph p' c = symbolOf s.eph p c := by
    unfold readPriorIfUsed
    by_cases hu : usesPrior s.eph = true
    · obtain ⟨k, hk⟩ : ∃ k, s.ecur.toNat = k + 1 := ⟨s.ecur.toNat - 1, by have := hprior hu; omega⟩
      rw [hk, Nat.add_sub_cancel] at hp
      exact ⟨p, by rw [if_pos hu, hk, readPrior, readSource_of_sourceIs hfits hp], rfl⟩
    · exact ⟨0, by rw [if_neg hu], symbolOf_of_not_usesPrior (by simpa using hu) _ _ _⟩
  obtain ⟨hcur, heph⟩ := encode_cursor_step s.ecur.toNat s.eph
  simp only [emitSymbol, hread, readSource_of_sourceIs hfits hc, dstCell, memWrite_ok _ hdst, hsym,
    hcur, heph]

/-- The state after `k` micro-steps of RPK.ENC of `bytes`; the cursor is that of R236. -/
def encodeState (s : State) (bytes : List Byte) (k : Nat) : State :=
  { s with
    mem := s.mem.setBytes s.dstL.toNat ((symbolsOf bytes).take k)
    progress := BitVec.ofNat 32 k
    ecur := BitVec.ofNat 32 ((6 * k + 5) / 8)
    eph := BitVec.ofNat 2 k }

/-- The source bytes, and 0 beyond them, are what `rd` gives in every state of the run (R234). -/
theorem Started.sourceIs {s : State} {bytes : List Byte} (h : Started .rpkEnc s bytes) (k j : Nat) :
    SourceIs (encodeState s bytes k) j (bytes.getD j 0) := by
  rcases lt_or_ge j bytes.length with hj | hj
  · exact .inl ⟨h.len_eq ▸ hj, h.source_get (symbolsOf_length bytes) k hj⟩
  · exact .inr ⟨h.len_eq ▸ hj, by simp [List.getD, hj]⟩

/-- The phase code of Symbol `k` steps on by 1, and the byte index with it but after phase 4 (R236). -/
theorem encodeCursor_succ (k : Nat) :
    (if BitVec.ofNat 2 k = 0b10 then (6 * k + 5) / 8 else (6 * k + 5) / 8 + 1) =
      (6 * (k + 1) + 5) / 8 := by
  have hphase : BitVec.ofNat 2 k = 0b10 ↔ k % 4 = 2 := by simp [BitVec.toNat_eq]
  have hk : k % 4 = 0 ∨ k % 4 = 1 ∨ k % 4 = 2 ∨ k % 4 = 3 := by omega
  simp only [hphase]
  rcases hk with hk | hk | hk | hk <;> split <;> omega

theorem emitSymbol_encodeState {s : State} {bytes : List Byte} (h : Started .rpkEnc s bytes) {k : Nat}
    (hk : k < outLen .rpkEnc bytes.length) :
    emitSymbol (encodeState s bytes k) = .next (encodeState s bytes (k + 1)) := by
  have hprogress : (encodeState s bytes k).progress.toNat = k := h.toNat_counter hk.le
  have hecur : (encodeState s bytes k).ecur.toNat = (6 * k + 5) / 8 := h.toNat_counter (by omega)
  have hphase : usesPrior (BitVec.ofNat 2 k) = true → 1 ≤ (6 * k + 5) / 8 := by
    rcases k.eq_zero_or_pos with rfl | hpos
    · decide
    · omega
  have hsrc : s.srcL.toNat + s.lenL.toNat ≤ s.cfg.bufSize := h.len_eq ▸ h.operands.src_fits
  have hdst : s.dstL.toNat + k < s.cfg.bufSize := by have := h.operands.dst_fits; omega
  have hmem := Memory.setBytes_take_succ s.mem s.dstL.toNat (hk.trans_eq (symbolsOf_length bytes).symm)
  rw [← symbolOf_eq_symbolsOf bytes hk] at hmem
  have hstep := emitSymbol_of_sources (s := encodeState s bytes k) (by rwa [hecur]) hsrc
    (by rwa [hprogress]) (h.sourceIs k _) (h.sourceIs k _)
  have hcursor : (if (encodeState s bytes k).eph = 0b10 then (6 * k + 5) / 8
      else (6 * k + 5) / 8 + 1) = (6 * (k + 1) + 5) / 8 := encodeCursor_succ k
  rw [hstep, hecur, hprogress, hcursor]
  simp only [encodeState, hmem, BitVec.ofNat_add]
  rfl

/-- RPK.ENC of `bytes` by the block alone: one micro-step a Symbol (R239). -/
theorem microPath_rpkEnc {s : State} {bytes : List Byte} (h : Started .rpkEnc s bytes) :
    MicroPath .rpkEnc (outLen .rpkEnc bytes.length) (encodeState s bytes) where
  busy _ _ := h.busy
  no_input _ _ := h.no_input
  latched _ _ := h.latched
  unfinished _ hk := (h.toNat_counter hk.le).trans_lt (hk.trans_eq h.outlen_toNat.symm)
  micro _ hk := emitSymbol_encodeState h hk
  finished := (h.outlen_toNat.trans (h.toNat_counter le_rfl).symm).le

/-- At the fresh cursor of R231 no Symbol has been emitted. -/
theorem encodeState_zero {s : State} {bytes : List Byte} (h : Started .rpkEnc s bytes)
    (hecur : s.ecur = 0) (heph : s.eph = 0) : encodeState s bytes 0 = s := by
  have hprogress := h.progress_eq
  cases s
  dsimp only at hecur heph hprogress
  subst hecur heph hprogress
  rfl

/-! ### RPK.DEC -/

/-- A micro-step of RPK.DEC in a legal phase on written source cells draws nothing (R246). -/
theorem emitByte_of_written {s : State} {a b : Byte} {r : Nat} (hr : r < 3)
    (hdlh : s.dlh = BitVec.ofNat 2 (3 - r))
    (hsrc : s.srcL.toNat + (s.dcur.toNat + 1) < s.cfg.bufSize)
    (hdst : s.dstL.toNat + s.progress.toNat < s.cfg.bufSize)
    (ha : s.mem.get (s.srcL.toNat + s.dcur.toNat) = some a)
    (hb : s.mem.get (s.srcL.toNat + (s.dcur.toNat + 1)) = some b) :
    emitByte s = .next { s with
      mem := s.mem.set (s.dstL.toNat + s.progress.toNat) (byteOf (6 - 2 * r) a b)
      progress := s.progress + 1
      dcur := BitVec.ofNat 32 (if r = 2 then s.dcur.toNat + 2 else s.dcur.toNat + 1)
      dlh := if r = 2 then 0b11 else BitVec.ofNat 2 (2 - r) } := by
  have hphase : s.dlh ≠ 0b00 ∧ 2 * s.dlh.toNat = 6 - 2 * r := by
    rw [hdlh]; interval_cases r <;> decide
  have hwrap : 6 - 2 * r - 2 = 0 ↔ r = 2 := by omega
  have hnext : (6 - 2 * r - 2) / 2 = 2 - r := by omega
  simp only [emitByte, hphase, if_false, srcCell, dstCell, memRead_written (by omega) ha,
    memRead_written hsrc hb, memWrite_ok _ hdst, hwrap, hnext]

/-- The state after `k` micro-steps of RPK.DEC of `cells`; the cursor is that of R243. -/
def decodeState (s : State) (cells : List Byte) (k : Nat) : State :=
  { s with
    mem := s.mem.setBytes s.dstL.toNat ((repackedBytes cells).take k)
    progress := BitVec.ofNat 32 k
    dcur := BitVec.ofNat 32 (k + k / 3)
    dlh := BitVec.ofNat 2 (3 - k % 3) }

theorem repackedBytes_getD {cells : List Byte} {k : Nat} (hk : k < outLen .rpkDec cells.length) :
    (repackedBytes cells).getD k 0 =
      byteOf (6 - 2 * (k % 3)) (cells.getD (k + k / 3) 0) (cells.getD (k + k / 3 + 1) 0) := by
  rw [List.getD_eq_getElem _ _ (by simpa using hk)]
  simp [repackedBytes, byteOf]

/-- The cursor of R243 steps on by 1, by 2 at the wrap. -/
theorem decodeCursor_succ (k : Nat) :
    (if k % 3 = 2 then k + k / 3 + 2 else k + k / 3 + 1) = k + 1 + (k + 1) / 3 ∧
    (if k % 3 = 2 then 0b11 else BitVec.ofNat 2 (2 - k % 3)) = BitVec.ofNat 2 (3 - (k + 1) % 3) := by
  by_cases hk : k % 3 = 2
  · have : (k + 1) % 3 = 0 := by omega
    simp only [hk, this, if_true]
    exact ⟨by omega, rfl⟩
  · rw [if_neg hk, if_neg hk]
    exact ⟨by omega, by congr 1; omega⟩

theorem emitByte_decodeState {s : State} {cells : List Byte} (h : Started .rpkDec s cells) {k : Nat}
    (hk : k < outLen .rpkDec cells.length) :
    emitByte (decodeState s cells k) = .next (decodeState s cells (k + 1)) := by
  have hlast : k + k / 3 + 1 < cells.length := by simp only [outLen] at hk; omega
  have hsmall := (bounds_of_cfg_wf h.cfg_wf).2
  have hsrc := h.operands.src_fits
  have hprogress : (decodeState s cells k).progress.toNat = k := h.toNat_counter hk.le
  have hdcur : (decodeState s cells k).dcur.toNat = k + k / 3 := by
    show (BitVec.ofNat 32 (k + k / 3)).toNat = _
    rw [BitVec.toNat_ofNat]; omega
  have hread (j : Nat) (hj : j < cells.length) :
      (decodeState s cells k).mem.get (s.srcL.toNat + j) = some (cells.getD j 0) :=
    h.source_get (repackedBytes_length cells) k hj
  have hmem := Memory.setBytes_take_succ s.mem s.dstL.toNat
    (hk.trans_eq (repackedBytes_length cells).symm)
  rw [repackedBytes_getD hk] at hmem
  obtain ⟨hcur, hdlh⟩ := decodeCursor_succ k
  have hsrc : s.srcL.toNat + (k + k / 3 + 1) < s.cfg.bufSize := by omega
  have hdst : s.dstL.toNat + k < s.cfg.bufSize := by have := h.operands.dst_fits; omega
  have hstep := emitByte_of_written (s := decodeState s cells k) (r := k % 3) (by omega) rfl
    (by rwa [hdcur]) (by rwa [hprogress]) (by rw [hdcur]; exact hread _ (by omega))
    (by rw [hdcur]; exact hread _ hlast)
  rw [hstep, hdcur, hprogress]
  simp only [decodeState, hmem, hcur, hdlh, BitVec.ofNat_add]
  rfl

/-- RPK.DEC of `cells` by the block alone: one micro-step a byte (R246). -/
theorem microPath_rpkDec {s : State} {cells : List Byte} (h : Started .rpkDec s cells) :
    MicroPath .rpkDec (outLen .rpkDec cells.length) (decodeState s cells) where
  busy _ _ := h.busy
  no_input _ _ := h.no_input
  latched _ _ := h.latched
  unfinished _ hk := (h.toNat_counter hk.le).trans_lt (hk.trans_eq h.outlen_toNat.symm)
  micro _ hk := emitByte_decodeState h hk
  finished := (h.outlen_toNat.trans (h.toNat_counter le_rfl).symm).le

/-- At the fresh cursor of R241 no byte has been emitted. -/
theorem decodeState_zero {s : State} {cells : List Byte} (h : Started .rpkDec s cells)
    (hdcur : s.dcur = 0) (hdlh : s.dlh = 0b11) : decodeState s cells 0 = s := by
  have hprogress := h.progress_eq
  cases s
  dsimp only at hdcur hdlh hprogress
  subst hdcur hdlh hprogress
  rfl

end Sys2Proof.Machine
end

section
/-! RUN of a repacker command (R127): the host's four writes, the operation under WAIT, and what a RUN of
RPK.ENC followed by one of RPK.DEC gives (R247). -/

namespace Sys2Proof.Machine

/-! ### The writes of RUN -/

theorem writeRegister_withHost (off : Nat) (v : Word) (l : List Input) (r : BusReply) (s : State) :
    writeRegister off v (s.withHost l r) = (writeRegister off v s).withHost l r := by
  unfold writeRegister
  split <;> rfl

theorem present_withHost (d : Instr) (l : List Input) (r : BusReply) (s : State) :
    present d (s.withHost l r) = (present d s).withHost l r := by
  unfold present
  simp only [apply_ite (State.withHost l r)]
  rfl

/-- A legal write of a register that is neither CMD nor a word of the block register. -/
theorem step_withHost_hostWR {off : Nat} (v : Word) (s : State) (l : List Input) (r : BusReply)
    (hlegal : regAccessLegal off 4 = true) (hcmd : off ≠ cmdOffset) (hblk : isBlkOffset off = false) :
    step (s.withHost (hostWR off v :: l) r) = .next ((writeRegister off v s).withHost l .written) := by
  rw [step_access (s := s.withHost (hostWR off v :: l) r) rfl, ← writeRegister_withHost]
  simp only [hostAccess, hlegal, hcmd, hblk, Bool.not_true, Bool.and_false, Bool.false_eq_true, if_false]
  rfl

/-- The CMD write of a command's word to an idle block presents the command (R151). -/
theorem step_withHost_hostCommand (d : Instr) {s : State} (l : List Input) (r : BusReply)
    (hidle : s.statusBusy = false) :
    step (s.withHost (hostCommand d :: l) r) = .next ((present d s).withHost l .written) := by
  have hlegal : regAccessLegal cmdOffset 4 = true := by decide
  have hidle' : (s.withHost l .written).statusBusy = false := hidle
  rw [step_access (s := s.withHost (hostCommand d :: l) r) rfl, ← present_withHost,
    ← lifecycle_idle (micro := microOf d) hidle', ← exec_eq_lifecycle]
  simp only [hostAccess, hlegal, Bool.not_true, Bool.false_eq_true, if_false, if_true]
  show writeCommand (encode d) (s.withHost l .written) = _
  simp [writeCommand, hidle, decode_encode]

/-- `s` with the operands that RUN writes to SRC, DST and LEN, and no input pending. -/
def State.withOperands (a b n : Nat) (s : State) : State :=
  { s with src := BitVec.ofNat 32 a, dst := BitVec.ofNat 32 b, len := BitVec.ofNat 32 n, inputs := [] }

/-- The four writes of RUN on an idle block. -/
theorem steps_hostRUN_writes {s : State} {d : Instr} {a b n : Nat} {turns : List Nat}
    {rest : List Input} (hidle : s.statusBusy = false)
    (hin : s.inputs = hostRUN d a b n turns ++ rest) :
    steps 4 s = .next ((present d (s.withOperands a b n)).withHost
      (List.replicate (turns.headD 0) .blockTurn ++ .wait turns.tail :: rest) .written) := by
  have hlist : hostRUN d a b n turns ++ rest =
      hostWR 0x014 (BitVec.ofNat 32 a) :: hostWR 0x018 (BitVec.ofNat 32 b) ::
        hostWR 0x01C (BitVec.ofNat 32 n) :: hostCommand d ::
        (List.replicate (turns.headD 0) .blockTurn ++ .wait turns.tail :: rest) := by
    simp [hostRUN, hostWAIT]
  have hs : s = s.withHost (hostRUN d a b n turns ++ rest) s.bus := by rw [← hin]; rfl
  have hoperands : s.withOperands a b n = (writeRegister 0x01C (BitVec.ofNat 32 n)
      (writeRegister 0x018 (BitVec.ofNat 32 b)
        (writeRegister 0x014 (BitVec.ofNat 32 a) s))).withHost [] s.bus := rfl
  rw [hlist] at hs
  conv_lhs => rw [hs]
  rw [steps_succ 3 (step_withHost_hostWR _ _ _ _ rfl (by decide) rfl),
    steps_succ 2 (step_withHost_hostWR _ _ _ _ rfl (by decide) rfl),
    steps_succ 1 (step_withHost_hostWR _ _ _ _ rfl (by decide) rfl),
    steps_succ 0 (step_withHost_hostCommand d _ _ ?idle), steps_zero]
  case idle => exact hidle
  rw [hoperands, present_withHost, State.withHost_withHost]

/-- RUN brings an idle block to where the command it presents takes the block alone, with the last STATUS
on the bus, whatever turns the block gets. -/
theorem steps_hostRUN {s t u : State} {d : Instr} {a b n : Nat} {turns : List Nat} {rest : List Input}
    (hidle : s.statusBusy = false) (hin : s.inputs = hostRUN d a b n turns ++ rest)
    (hpresent : present d (s.withOperands a b n) = u) (halone : RunsAlone u t) :
    ∃ j, steps j s = .next (t.withHost rest (.data (statusWord t))) := by
  obtain ⟨hno, hend, k, hbusy, hk⟩ := halone
  obtain ⟨j, hj⟩ := steps_wait k u t (turns.headD 0) turns.tail rest .written hno hbusy hk hend
  have hwrites := steps_hostRUN_writes hidle hin
  rw [hpresent] at hwrites
  exact ⟨4 + j, (steps_add j 4 s hwrites).trans hj⟩

/-! ### RUN of a repacker command -/

/-- What a RUN that wrote `result` at `b` leaves: ERR and the parameters as they were. -/
structure RunResult (s t : State) (rest : List Input) (b : Nat) (result : List Byte) : Prop where
  inputs_eq : t.inputs = rest
  idle : t.statusBusy = false
  err_eq : t.err = s.err
  cfg_eq : t.cfg = s.cfg
  outlen_eq : t.outlen.toNat = result.length
  mem_eq : t.mem = s.mem.setBytes b result

section
variable {s : State} {cells : List Byte} {a b : Nat} {turns : List Nat} {rest : List Input}

/-- RUN of a memory command on operands that pass the checks starts it with them. -/
theorem started_withOperands {d : Instr} (hcfg : s.cfg.wf = true)
    (hops : OperandsAt s a cells b (outLen d cells.length)) :
    present d (s.withOperands a b cells.length) =
        accept d (outLen d cells.length) (s.withOperands a b cells.length) ∧
      (BitVec.ofNat 32 b).toNat = b ∧
      Started d (accept d (outLen d cells.length) (s.withOperands a b cells.length)) cells := by
  have hsmall := (bounds_of_cfg_wf hcfg).2
  obtain ⟨hsrc, hdst, hdisj, hmem⟩ := hops
  have hword {k : Nat} (hk : k ≤ s.cfg.bufSize) : (BitVec.ofNat 32 k).toNat = k := by
    rw [BitVec.toNat_ofNat]; omega
  have ha := hword (k := a) (by omega)
  have hb := hword (k := b) (by omega)
  have hstart := started_present (d := d) (s := s.withOperands a b cells.length) rfl hcfg
    (hword (by omega)) (by
      simp only [State.withOperands, ha, hb]
      exact ⟨hsrc, hdst, hdisj, hmem⟩)
  exact ⟨hstart.1, hb, hstart.2⟩

/-- RUN of a command that the block alone takes from acceptance to `t`, with `result` written at DST. -/
theorem exists_runResult {d : Instr} {t : State} {result : List Byte} (hcfg : s.cfg.wf = true)
    (hidle : s.statusBusy = false) (hin : s.inputs = hostRUN d a b cells.length turns ++ rest)
    (hops : OperandsAt s a cells b (outLen d cells.length))
    (halone : RunsAlone (accept d (outLen d cells.length) (s.withOperands a b cells.length)) t)
    (hframe : t.err = s.err ∧ t.cfg = s.cfg ∧ t.outlen = BitVec.ofNat 32 (outLen d cells.length))
    (hlen : result.length = outLen d cells.length)
    (hmem : t.mem = s.mem.setBytes (BitVec.ofNat 32 b).toNat (result.take (outLen d cells.length))) :
    ∃ j t', steps j s = .next t' ∧ RunResult s t' rest b result := by
  obtain ⟨hpresent, hb, hstart⟩ := started_withOperands hcfg hops
  obtain ⟨j, hj⟩ := steps_hostRUN hidle hin hpresent halone
  obtain ⟨herr, hcfg', hout⟩ := hframe
  rw [hb, List.take_of_length_le hlen.le] at hmem
  refine ⟨j, _, hj, rfl, halone.idle, herr, hcfg', ?_, hmem⟩
  exact (congrArg BitVec.toNat hout).trans ((hstart.toNat_counter le_rfl).trans hlen.symm)

theorem steps_hostRUN_rpkEnc (hcfg : s.cfg.wf = true) (hidle : s.statusBusy = false)
    (hin : s.inputs = hostRUN .rpkEnc a b cells.length turns ++ rest)
    (hops : OperandsAt s a cells b (outLen .rpkEnc cells.length)) :
    ∃ j t, steps j s = .next t ∧ RunResult s t rest b (symbolsOf cells) := by
  obtain ⟨-, -, hstart⟩ := started_withOperands hcfg hops
  have halone := (microPath_rpkEnc hstart).runsAlone
  rw [encodeState_zero hstart rfl rfl] at halone
  exact exists_runResult hcfg hidle hin hops halone ⟨rfl, rfl, rfl⟩ (symbolsOf_length cells) rfl

theorem steps_hostRUN_rpkDec (hcfg : s.cfg.wf = true) (hidle : s.statusBusy = false)
    (hin : s.inputs = hostRUN .rpkDec a b cells.length turns ++ rest)
    (hops : OperandsAt s a cells b (outLen .rpkDec cells.length)) :
    ∃ j t, steps j s = .next t ∧ RunResult s t rest b (repackedBytes cells) := by
  obtain ⟨-, -, hstart⟩ := started_withOperands hcfg hops
  have halone := (microPath_rpkDec hstart).runsAlone
  rw [decodeState_zero hstart rfl rfl] at halone
  exact exists_runResult hcfg hidle hin hops halone ⟨rfl, rfl, rfl⟩ (repackedBytes_length cells) rfl

end

/-- Settles O33: the first RUN leaves the Symbols of the buffer at `b`, the second makes of them the
bytes of their stream, which is the buffer's stream. -/
theorem repackDecodeInvertsRepackEncode : Obligations.RepackDecodeInvertsRepackEncode := by
  intro s bytes a b c m turns₁ turns₂ hcfg hidle hm hin hsrc hmid hdst hdisj₁ hdisj₂ hmem
  obtain rfl : m = outLen .rpkEnc bytes.length := hm
  obtain ⟨j, u, hj, henc⟩ := steps_hostRUN_rpkEnc hcfg hidle hin ⟨hsrc, hmid, hdisj₁, hmem⟩
  have hinverse : repackedBytes (symbolsOf bytes) = bytes := by
    rw [repackedBytes_of_symbols (symbolsOf_toNat_lt bytes), bytesOfSymbols_symbolsOf]
  have hops : OperandsAt u b (symbolsOf bytes) c (outLen .rpkDec (symbolsOf bytes).length) := by
    rw [symbolsOf_length, outLen_rpkDec_rpkEnc]
    refine ⟨by rwa [symbolsOf_length, henc.cfg_eq], by rwa [henc.cfg_eq], by rwa [symbolsOf_length], ?_⟩
    rw [henc.mem_eq]
    exact Memory.holds_setBytes _ _ _
  obtain ⟨k, t, hk, hdec⟩ := steps_hostRUN_rpkDec (turns := turns₂) (rest := [])
    (henc.cfg_eq ▸ hcfg) henc.idle (by rw [henc.inputs_eq, symbolsOf_length, List.append_nil]) hops
  rw [hinverse] at hdec
  refine ⟨j + k, t, (steps_add k j s hj).trans hk, hdec.inputs_eq, hdec.idle,
    hdec.err_eq.trans henc.err_eq, hdec.outlen_eq, ?_⟩
  rw [hdec.mem_eq]
  exact Memory.holds_setBytes _ _ _

end Sys2Proof.Machine
end

section
/-! PadCount (R281), by the length of the buffer and by the count of Symbols. -/

namespace Sys2Proof.Machine

/-- Three bytes make four Symbols; the bytes left over make theirs alone. -/
theorem outLen_rpkEnc_div_add_mod (n : Nat) :
    outLen .rpkEnc n = 4 * (n / 3) + outLen .rpkEnc (n % 3) := by
  simp only [outLen]; omega

theorem outLen_rpkEnc_mod_four (n : Nat) : outLen .rpkEnc n % 4 = outLen .rpkEnc (n % 3) := by
  have hleft : outLen .rpkEnc (n % 3) < 4 := by simp only [outLen]; omega
  rw [outLen_rpkEnc_div_add_mod, Nat.mul_add_mod, Nat.mod_eq_of_lt hleft]

theorem padCount_mod_three (n : Nat) : padCount n = padCount (n % 3) := by
  simp only [padCount, Nat.mod_mod]

/-- Settles O57: both forms depend on `n mod 3` alone; the Symbol count modulo 4 is 0, 2 or 3. -/
theorem paddingCounts : Obligations.PaddingCounts := by
  intro n
  rw [outLen_rpkEnc_mod_four, padCount_mod_three]
  have hresidue : n % 3 < 3 := Nat.mod_lt n (by decide)
  generalize n % 3 = r at hresidue ⊢
  revert r
  decide

end Sys2Proof.Machine
end

section
/-! The CMD write seen from `step` (R151), and the one that meets a running operation (R303). -/

namespace Sys2Proof.Machine

/-- A pending word write of CMD is legal, so the host's step is the CMD write itself. -/
theorem step_commandWrite {s : State} {w : Word} {rest : List Input}
    (h : s.inputs = .access (.write .reg cmdOffset 4 w) :: rest) :
    step s = writeCommand w { s with inputs := rest, bus := .written } := by
  have hlegal : regAccessLegal cmdOffset 4 = true := by decide
  rw [step_access h]
  simp only [hostAccess, hlegal, Bool.not_true, Bool.false_eq_true, if_false, if_true, reply]

/-- The check of BUSY comes before the word is decoded. -/
theorem writeCommand_busy (w : Word) {s : State} (h : s.statusBusy = true) :
    writeCommand w s = .next (recordError .busyCmd s) := by
  rw [writeCommand, if_pos h]
  rfl

/-- Settles O8: the word is never looked at, and `recordError` touches ERR alone. -/
theorem commandWhileBusyIsRejected : Obligations.CommandWhileBusyIsRejected := by
  intro s w rest hin hbusy
  calc step s
      = writeCommand w { s with inputs := rest, bus := .written } := step_commandWrite hin
    _ = .next (recordError .busyCmd { s with inputs := rest, bus := .written }) :=
        writeCommand_busy w hbusy

end Sys2Proof.Machine
end

section
/-! One host access (R60, R303, R307): while an operation runs it can change the host's own
registers alone, and from a state of the invariant it never stops the machine and keeps the
invariant. -/

namespace Sys2Proof.Machine

/-! ### While BUSY = 1 -/

/-- A host access while BUSY = 1 changes the host's own registers, ERR, DONE and the draws alone; it
sets neither ERR.PHASE nor DONE. -/
theorem hostAccess_busy (a : HostAccess) {s : State} (hbusy : s.statusBusy = true) :
    ∃ (e : BitVec 6) (d p q : Bool) (x y z : Word) (n : Nat) (r : BusReply),
      hostAccess a s = .next { s with
        err := e, statusDone := d, doneIE := p, errIE := q, src := x, dst := y, len := z,
        draws := n, bus := r } ∧
      (s.err.getLsbD 4 = false → e.getLsbD 4 = false) ∧ (s.statusDone = false → d = false) := by
  rcases hostAccess_cases a s with
    ⟨r, n, h⟩ | ⟨-, h⟩ | ⟨_, _, hidle, -⟩ | ⟨off, v, hblk, h⟩ | ⟨w, h⟩
  · exact ⟨_, _, _, _, _, _, _, _, _, h, id, id⟩
  · exact ⟨_, _, _, _, _, _, _, _, _, h, fun he => phaseBit_errBit (c := .busyWr) he (by simp), id⟩
  · simp [hbusy] at hidle
  · obtain ⟨d, p, q, e, x, y, z, w0, w1, w2, w3, hw, hd, he, hlanes⟩ :=
      writeRegister_spec off v { s with bus := .written }
    obtain ⟨rfl, rfl, rfl, rfl⟩ := hlanes (by simpa [hbusy] using hblk)
    exact ⟨e, d, p, q, x, y, z, _, _, h.trans (congrArg _ hw), he 4, hd⟩
  · have hreject := writeCommand_busy w (s := { s with bus := .written }) hbusy
    exact ⟨_, _, _, _, _, _, _, _, _, h.trans hreject,
      fun he => phaseBit_errBit (c := .busyCmd) he (by simp), id⟩

/-- Settles O51: whatever the access, its step is `hostAccess`, and `hostAccess_busy` lists what
that can change. -/
theorem hostCannotDisturbARunningOperation : Obligations.HostCannotDisturbARunningOperation := by
  intro s a rest hin hbusy
  obtain ⟨e, d, p, q, x, y, z, n, r, h, -⟩ :=
    hostAccess_busy a (s := { s with inputs := rest }) hbusy
  exact ⟨e, d, p, q, x, y, z, n, r, (step_access hin).trans h⟩

/-! ### In a state of the invariant -/

/-- Bytes that the host writes into BUFMEM while the block is idle (R98) keep the invariant. -/
theorem State.Inv.with_mem_idle {s : State} (hi : s.Inv) (hidle : s.statusBusy = false) {m : Memory}
    (hwf : m.wf) (hinside : ∀ c ∈ m, c.1 < s.cfg.bufSize) : State.Inv { s with mem := m } :=
  ⟨hi.cfg_wf, hwf, hinside, hi.last_op, hi.dlh_legal, hi.no_phase_error, hi.progress_le,
    hi.idle_finished, hi.busy_not_done,
    fun hbusy => absurd hidle (by simp [show s.statusBusy = true from hbusy])⟩

theorem State.Inv.with_inputs {s : State} (hi : s.Inv) (l : List Input) :
    State.Inv { s with inputs := l } :=
  hi.with_host_fields _ _ _ _ _ _ _ _ _ _ _ _ _ _ hi.no_phase_error hi.busy_not_done

theorem State.Inv.with_reply {s : State} (hi : s.Inv) (r : BusReply) :
    State.Inv { s with bus := r } :=
  hi.with_host_fields _ _ _ _ _ _ _ _ _ _ _ _ _ _ hi.no_phase_error hi.busy_not_done

/-- After a poll of WAIT: the rest of the host's program, and STATUS on the bus. -/
theorem State.Inv.with_poll {s : State} (hi : s.Inv) (l : List Input) (r : BusReply) :
    State.Inv { s with inputs := l, bus := r } :=
  hi.with_host_fields _ _ _ _ _ _ _ _ _ _ _ _ _ _ hi.no_phase_error hi.busy_not_done

theorem State.Inv.recordError {s : State} (hi : s.Inv) {c : ErrCause} (hc : c ≠ .phase) :
    (Sys2Proof.Machine.recordError c s).Inv :=
  hi.with_host_fields _ _ _ _ _ _ _ _ _ _ _ _ _ _ (phaseBit_errBit hi.no_phase_error hc)
    hi.busy_not_done

/-- The CMD write (R151) answers a next state of the invariant. -/
theorem State.Inv.writeCommand {s : State} (hi : s.Inv) (w : Word) :
    ∃ t, Sys2Proof.Machine.writeCommand w s = .next t ∧ t.Inv := by
  rcases writeCommand_cases w s with ⟨-, h⟩ | ⟨-, h⟩ | ⟨hidle, i, -, h⟩
  · exact ⟨_, h, hi.recordError (by simp)⟩
  · exact ⟨_, h, hi.recordError (by simp)⟩
  · rw [exec_eq_lifecycle, lifecycle_idle hidle] at h
    exact ⟨_, h, hi.present i⟩

/-- A host access answers a next state of the invariant (R309). -/
theorem State.Inv.hostAccess {s : State} (hi : s.Inv) (a : HostAccess) :
    ∃ t, Sys2Proof.Machine.hostAccess a s = .next t ∧ t.Inv := by
  rcases hostAccess_cases a s with
    ⟨r, n, h⟩ | ⟨-, h⟩ | ⟨off, bs, hidle, hfits, h⟩ | ⟨off, v, -, h⟩ | ⟨w, h⟩
  · exact ⟨_, h, hi.with_host_fields _ _ _ _ _ _ _ _ _ _ _ _ _ _ hi.no_phase_error hi.busy_not_done⟩
  · exact ⟨_, h, (hi.with_reply .written).recordError (by simp)⟩
  · exact ⟨_, h, (hi.with_mem_idle hidle (Memory.wf_setBytes bs _ off hi.mem_wf)
      (Memory.inside_setBytes bs _ _ off hi.mem_inside hfits)).with_reply .written⟩
  · obtain ⟨d, p, q, e, x, y, z, w0, w1, w2, w3, hw, hd, he, -⟩ :=
      writeRegister_spec off v { s with bus := .written }
    exact ⟨_, h.trans (congrArg _ hw), hi.with_host_fields _ _ _ _ _ _ _ _ _ _ _ _ _ _
      (he 4 hi.no_phase_error) fun hbusy => hd (hi.busy_not_done hbusy)⟩
  · rw [h]
    exact (hi.with_reply .written).writeCommand w

end Sys2Proof.Machine
end

section
/-! The block's step in a state of the invariant (R157–R159): a micro-step that counts PROGRESS on
and keeps the invariant, or the completion step. -/

namespace Sys2Proof.Machine

/-! ### What a micro-step makes of PROGRESS -/

/-- PROGRESS after one more micro-step (R158, R192, R239, R246). -/
def progressAfter (d : Instr) (out p : Nat) : Nat :=
  match d with
  | .nop => p
  | .xlEnc | .xlDec => p + min 16 (out - p)
  | .xlEncB | .xlDecB => 16
  | .rpkEnc | .rpkDec => p + 1

/-- A micro-step of the latched command from `s` to `t`: the operation runs on, and the invariant
with it. -/
structure MicroStep (s t : State) : Prop where
  micro : microOf s.opL s = .next t
  inv : t.Inv
  busy : t.statusBusy = true
  opL_eq : t.opL = s.opL
  outlen_eq : t.outlen = s.outlen
  inputs_eq : t.inputs = s.inputs
  progress_eq : t.progress.toNat = progressAfter s.opL s.outlen.toNat s.progress.toNat

section
variable {s : State}

/-- A micro-step keeps the invariant: what has to be shown of the fields that it writes. -/
theorem State.Inv.microStep (hi : s.Inv) (hbusy : s.statusBusy = true) {m : Memory} {n : Nat}
    {p e c w0 w1 w2 w3 : Word} {ph l : BitVec 2}
    (hmicro : microOf s.opL s = .next { s with
      mem := m, draws := n, progress := p, ecur := e, eph := ph, dcur := c, dlh := l,
      blk0 := w0, blk1 := w1, blk2 := w2, blk3 := w3 })
    (hwf : m.wf) (hinside : ∀ cell ∈ m, cell.1 < s.cfg.bufSize) (hlegal : l ≠ 0b00)
    (hprogress : p.toNat = progressAfter s.opL s.outlen.toNat s.progress.toNat)
    (hle : p.toNat ≤ s.outlen.toNat)
    (haligned : s.opL = .xlEnc ∨ s.opL = .xlDec → p.toNat % 16 = 0 ∨ p = s.outlen)
    (henc : s.opL = .rpkEnc → e.toNat = (6 * p.toNat + 5) / 8 ∧ ph.toNat = p.toNat % 4)
    (hdec : s.opL = .rpkDec → c.toNat = p.toNat + p.toNat / 3 ∧ l.toNat = 3 - p.toNat % 3) :
    ∃ t, MicroStep s t := by
  obtain ⟨hout, hsrc, hdst, hdisj, -, -, -⟩ := hi.operation hbusy
  exact ⟨_, hmicro, ⟨hi.cfg_wf, hwf, hinside, hi.last_op, hlegal, hi.no_phase_error, hle,
    fun hidle => absurd hbusy (by simp [show s.statusBusy = false from hidle]), hi.busy_not_done,
    fun _ => ⟨hout, hsrc, hdst, hdisj, haligned, henc, hdec⟩⟩, hbusy, rfl, rfl, rfl, hprogress⟩

/-- One micro-step of XL.ENC or XL.DEC (R190, R191). -/
theorem State.Inv.exists_microStep_translateBlock (hi : s.Inv) (hbusy : s.statusBusy = true)
    (hop : s.opL = .xlEnc ∨ s.opL = .xlDec) {f : Byte → Byte}
    (hmicro : microOf s.opL = translateBlock f) : ∃ t, MicroStep s t := by
  have hinv := hi.operation hbusy
  have huses : usesBuffer s.opL = true := by rcases hop with h | h <;> rw [h] <;> rfl
  have hlen : s.outlen.toNat = s.lenL.toNat := by
    rcases hop with h | h <;> simpa [h, outLen] using hinv.outlen_eq
  have hsrc := hinv.src_fits huses
  have hdst := hinv.dst_fits huses
  have hle := hi.progress_le
  obtain ⟨cnt, hcnt⟩ : ∃ cnt, cnt = min 16 (s.outlen.toNat - s.progress.toNat) := ⟨_, rfl⟩
  obtain ⟨cells, n, hcells, hstep, -⟩ := translateBlock_spec (f := f) rfl hcnt (by omega) (by omega)
  have hfits : s.dstL.toNat + s.progress.toNat + (cells.map f).length ≤ s.cfg.bufSize := by
    rw [List.length_map, hcells]; omega
  have hprogress : (BitVec.ofNat 32 (s.progress.toNat + cnt)).toNat = s.progress.toNat + cnt := by
    have := s.outlen.isLt
    rw [BitVec.toNat_ofNat]; omega
  refine hi.microStep hbusy (by rw [hmicro, hstep]) (Memory.wf_setBytes _ _ _ hi.mem_wf)
    (Memory.inside_setBytes _ _ _ _ hi.mem_inside hfits) hi.dlh_legal ?_ (by omega) (fun _ => ?_)
    (fun h => by simp [h] at hop) (fun h => by simp [h] at hop)
  · rcases hop with h | h <;> rw [hprogress, h, hcnt] <;> rfl
  · by_cases hlast : s.progress.toNat + 16 ≤ s.outlen.toNat
    · rcases hinv.block_aligned hop with halign | hdone
      · exact .inl (by omega)
      · rw [hdone] at hlast; omega
    · exact .inr (BitVec.eq_of_toNat_eq (by omega))

/-- The one micro-step of XL.ENCB or XL.DECB (R192, R193). -/
theorem State.Inv.exists_microStep_translateLanes (hi : s.Inv) (hbusy : s.statusBusy = true)
    (hop : s.opL = .xlEncB ∨ s.opL = .xlDecB) {f : Byte → Byte}
    (hmicro : microOf s.opL = translateLanes f) : ∃ t, MicroStep s t := by
  have hout : s.outlen.toNat = 16 := by
    rcases hop with h | h <;> simpa [h, outLen] using (hi.operation hbusy).outlen_eq
  refine hi.microStep hbusy (p := 16) (by rw [hmicro]; rfl) hi.mem_wf hi.mem_inside hi.dlh_legal ?_
    hout.ge (fun _ => .inl rfl) (fun h => by simp [h] at hop) (fun h => by simp [h] at hop)
  rcases hop with h | h <;> rw [h] <;> rfl

/-- One micro-step of RPK.ENC (R239); the prior byte exists where the phase uses it (R238). -/
theorem State.Inv.exists_microStep_emitSymbol (hi : s.Inv) (hbusy : s.statusBusy = true)
    (hop : s.opL = .rpkEnc) (hp : s.progress.toNat < s.outlen.toNat) : ∃ t, MicroStep s t := by
  have hinv := hi.operation hbusy
  obtain ⟨hecur, heph⟩ := hinv.enc_cursor hop
  have hsrc := hinv.src_fits (by rw [hop]; rfl)
  have hdst := hinv.dst_fits (by rw [hop]; rfl)
  have hsmall := (bounds_of_cfg_wf hi.cfg_wf).2
  have hphase : s.eph = BitVec.ofNat 2 s.progress.toNat := BitVec.eq_of_toNat_eq (by simp [heph])
  have hprior : usesPrior s.eph = true → 1 ≤ s.ecur.toNat := by
    rw [hphase, hecur]
    rcases s.progress.toNat.eq_zero_or_pos with h | h
    · rw [h]; decide
    · omega
  obtain ⟨a, b, n, hstep, -, -⟩ := emitSymbol_spec hprior hsrc (by omega)
  obtain ⟨hcur, hnext⟩ := encode_cursor_step s.ecur.toNat s.eph
  rw [hcur, hnext, hecur, hphase, encodeCursor_succ] at hstep
  have hprogress := toNat_add_one (w := s.progress) (by omega)
  refine hi.microStep hbusy ((congrArg (microOf · s) hop).trans hstep) (Memory.wf_set _ _ hi.mem_wf)
    (Memory.inside_set _ hi.mem_inside (by omega)) hi.dlh_legal (by rw [hop]; exact hprogress)
    (by omega) (fun h => by simp [hop] at h) (fun _ => ⟨?_, ?_⟩) (fun h => by simp [hop] at h)
  · rw [hprogress, BitVec.toNat_ofNat]
    omega
  · simp [BitVec.toNat_add]

/-- The decode phase steps down by 1, and from its last value to 11 (R243). -/
theorem decodePhase_succ {q : BitVec 2} {k : Nat} (hq : q.toNat = 3 - k % 3) :
    (q = 0b01 ↔ k % 3 = 2) ∧
      (if q = 0b01 then 0b11 else q - 1).toNat = 3 - (k + 1) % 3 := by
  have hcase : ∀ q : BitVec 2, q ≠ 0b00 → (q = 0b01 ↔ q.toNat = 1) ∧
      (if q = 0b01 then 0b11 else q - 1).toNat = if q.toNat = 1 then 3 else q.toNat - 1 := by decide
  obtain ⟨hlast, hnext⟩ := hcase q (fun h => by simp [h] at hq; omega)
  rw [hnext, hlast]
  split <;> omega

/-- One micro-step of RPK.DEC (R246); the phase is legal and both cells are source cells (R243,
R244). -/
theorem State.Inv.exists_microStep_emitByte (hi : s.Inv) (hbusy : s.statusBusy = true)
    (hop : s.opL = .rpkDec) (hp : s.progress.toNat < s.outlen.toNat) : ∃ t, MicroStep s t := by
  have hinv := hi.operation hbusy
  obtain ⟨hdcur, hdlh⟩ := hinv.dec_cursor hop
  have hsrc := hinv.src_fits (by rw [hop]; rfl)
  have hdst := hinv.dst_fits (by rw [hop]; rfl)
  have hsmall := (bounds_of_cfg_wf hi.cfg_wf).2
  have hout : s.outlen.toNat = 3 * s.lenL.toNat / 4 := by simpa [hop, outLen] using hinv.outlen_eq
  obtain ⟨a, b, n, hstep, -, -⟩ := emitByte_spec hi.dlh_legal (by omega) (by omega)
  obtain ⟨hwrap, hphase⟩ := decodePhase_succ hdlh
  have hcur := (decodeCursor_succ s.progress.toNat).1
  simp only [← hwrap, ← hdcur] at hcur
  rw [hcur] at hstep
  have hprogress := toNat_add_one (w := s.progress) (by omega)
  refine hi.microStep hbusy ((congrArg (microOf · s) hop).trans hstep) (Memory.wf_set _ _ hi.mem_wf)
    (Memory.inside_set _ hi.mem_inside (by omega)) (fun h => ?_) (by rw [hop]; exact hprogress)
    (by omega) (fun h => by simp [hop] at h) (fun h => by simp [hop] at h) (fun _ => ⟨?_, ?_⟩)
  · rw [h, show (0b00 : BitVec 2).toNat = 0 from rfl] at hphase
    omega
  · rw [hprogress, BitVec.toNat_ofNat]
    omega
  · rw [hprogress, hphase]

/-- While PROGRESS is below OUTLEN the latched command has its micro-step (R158). -/
theorem State.Inv.exists_microStep (hi : s.Inv) (hbusy : s.statusBusy = true)
    (hp : s.progress.toNat < s.outlen.toNat) : ∃ t, MicroStep s t := by
  cases hop : s.opL with
  | nop =>
    have hout : s.outlen.toNat = 0 := by simpa [hop, outLen] using (hi.operation hbusy).outlen_eq
    omega
  | xlEnc => exact hi.exists_microStep_translateBlock hbusy (.inl hop) (f := te) (by rw [hop]; rfl)
  | xlDec => exact hi.exists_microStep_translateBlock hbusy (.inr hop) (f := td) (by rw [hop]; rfl)
  | xlEncB => exact hi.exists_microStep_translateLanes hbusy (.inl hop) (f := te) (by rw [hop]; rfl)
  | xlDecB => exact hi.exists_microStep_translateLanes hbusy (.inr hop) (f := td) (by rw [hop]; rfl)
  | rpkEnc => exact hi.exists_microStep_emitSymbol hbusy hop hp
  | rpkDec => exact hi.exists_microStep_emitByte hbusy hop hp

/-- The completion step keeps the invariant (R159). -/
theorem State.Inv.complete (hi : s.Inv) (hp : ¬s.progress.toNat < s.outlen.toNat) :
    (Sys2Proof.Machine.complete s).Inv :=
  ⟨hi.cfg_wf, hi.mem_wf, hi.mem_inside, hi.last_op, hi.dlh_legal, hi.no_phase_error, hi.progress_le,
    fun _ => BitVec.eq_of_toNat_eq (le_antisymm hi.progress_le (not_lt.mp hp)),
    fun h => absurd h (by simp), fun h => absurd h (by simp)⟩

/-- The block's step while BUSY = 1 (R157): a micro-step below OUTLEN, otherwise the completion
step. -/
theorem State.Inv.exec_opL (hi : s.Inv) (hbusy : s.statusBusy = true) :
    (s.progress.toNat < s.outlen.toNat ∧ ∃ t, exec s.opL s = .next t ∧ MicroStep s t) ∨
    (¬s.progress.toNat < s.outlen.toNat ∧
      exec s.opL s = .next (Sys2Proof.Machine.complete s)) := by
  by_cases hp : s.progress.toNat < s.outlen.toNat
  · obtain ⟨t, ht⟩ := hi.exists_microStep hbusy hp
    exact .inl ⟨hp, t, by rw [exec_eq_lifecycle, lifecycle_micro hbusy hp, ht.micro], ht⟩
  · exact .inr ⟨hp, exec_finished _ hbusy hp⟩

end

end Sys2Proof.Machine
end

section
/-! Every step from a state of the invariant (R305, R309, R311): it answers a next state, of the
invariant again, and it can move PROGRESS only up to OUTLEN. -/

namespace Sys2Proof.Machine

/-! ### Safety -/

/-- The block's step while BUSY = 1 answers a next state of the invariant. -/
theorem State.Inv.exec_next {s : State} (hi : s.Inv) (hbusy : s.statusBusy = true) :
    ∃ t, exec s.opL s = .next t ∧ t.Inv := by
  rcases hi.exec_opL hbusy with ⟨-, t, h, ht⟩ | ⟨hp, h⟩
  · exact ⟨t, h, ht.inv⟩
  · exact ⟨_, h, hi.complete hp⟩

theorem reset_inv : State.reset.Inv :=
  ⟨by decide, reset_mem_wf, by decide, rfl, by decide, by decide, by decide, fun _ => rfl,
    by decide, fun h => absurd h (by decide)⟩

/-- The reset input gives a state of the invariant: that of `State.reset`, with the parameters kept.
-/
theorem State.Inv.resetBlock {s : State} (hi : s.Inv) : (Sys2Proof.Machine.resetBlock s).Inv :=
  ⟨hi.cfg_wf, List.Pairwise.nil, by simp, rfl, by simp, by simp, le_rfl, fun _ => rfl,
    by simp, by simp⟩

/-- Whoever moves, a step from a state of the invariant answers a next state of the invariant. -/
theorem State.Inv.step {s : State} (hi : s.Inv) :
    ∃ t, Sys2Proof.Machine.step s = .next t ∧ t.Inv := by
  rcases step_cases s with ⟨l, h⟩ | ⟨hbusy, l, h⟩ | ⟨a, l, -, h⟩ | ⟨l, r, h⟩ | ⟨l, -, h⟩
  · exact ⟨_, h, hi.with_inputs l⟩
  · rw [h]
    exact (hi.with_inputs l).exec_next hbusy
  · rw [h]
    exact (hi.with_inputs l).hostAccess a
  · exact ⟨_, h, hi.with_poll l r⟩
  · exact ⟨_, h, (hi.with_inputs l).resetBlock⟩

/-- Settles O34: the invariant's clauses, each of the fields of `State.reset`. -/
theorem resetMeetsTheInvariant : Obligations.ResetMeetsTheInvariant := reset_inv

/-- Settles O35: whichever agent the step is, it answers a state of the invariant. -/
theorem stepKeepsTheInvariant : Obligations.StepKeepsTheInvariant := by
  intro s t hi hstep
  obtain ⟨u, hu, hinv⟩ := hi.step
  obtain rfl : u = t := by simpa [hu] using hstep
  exact hinv

/-- Settles O36: the same step lemma, for the answer. -/
theorem noStepStopsTheMachine : Obligations.NoStepStopsTheMachine := by
  intro s hi
  obtain ⟨t, ht, -⟩ := hi.step
  exact ⟨t, ht⟩

/-! ### PROGRESS -/

theorem le_progressAfter {d : Instr} {out p : Nat} (hp : p ≤ out)
    (hout : d = .xlEncB ∨ d = .xlDecB → out = 16) : p ≤ progressAfter d out p := by
  cases d <;> simp [progressAfter] at hout ⊢ <;> omega

theorem MicroStep.progress_le {s t : State} (h : MicroStep s t) (hi : s.Inv)
    (hbusy : s.statusBusy = true) : s.progress.toNat ≤ t.progress.toNat := by
  rw [h.progress_eq]
  refine le_progressAfter hi.progress_le fun hop => ?_
  rcases hop with hop | hop <;> simpa [hop, outLen] using (hi.operation hbusy).outlen_eq

/-- Settles O39: only the block's step moves PROGRESS, and it keeps OUTLEN; the bound is the
invariant's of the next state. -/
theorem progressOnlyAdvances : Obligations.ProgressOnlyAdvances := by
  intro s t hi hbusy hreset hstep
  have hle := (stepKeepsTheInvariant s t hi hstep).progress_le
  suffices s.progress.toNat ≤ t.progress.toNat ∧ t.outlen = s.outlen from ⟨this.1, hle, this.2⟩
  rcases step_cases s with ⟨l, h⟩ | ⟨-, l, h⟩ | ⟨a, l, -, h⟩ | ⟨l, r, h⟩ | ⟨l, hin, -⟩
  · cases h.symm.trans hstep
    exact ⟨le_rfl, rfl⟩
  · rw [h] at hstep
    rcases (hi.with_inputs l).exec_opL hbusy with ⟨-, u, hu, hmicro⟩ | ⟨-, hu⟩
    · cases hu.symm.trans hstep
      exact ⟨hmicro.progress_le (hi.with_inputs l) hbusy, hmicro.outlen_eq⟩
    · cases hu.symm.trans hstep
      exact ⟨le_rfl, rfl⟩
  · obtain ⟨_, _, _, _, _, _, _, _, _, hu, -⟩ :=
      hostAccess_busy a (s := { s with inputs := l }) hbusy
    cases (h.trans hu).symm.trans hstep
    exact ⟨le_rfl, rfl⟩
  · cases h.symm.trans hstep
    exact ⟨le_rfl, rfl⟩
  · exact absurd hin (hreset l)

end Sys2Proof.Machine
end

section
/-! A running operation ends (R160): each block step takes it one micro-step nearer, and the host
can hold it up only as long as its finite list of inputs lasts. -/

namespace Sys2Proof.Machine

/-! ### Counting the micro-steps -/

/-- The micro-steps that an operation has left with `left` destination cells outstanding. -/
def microStepsLeft (d : Instr) (left : Nat) : Nat :=
  match d with
  | .nop => 0
  | .xlEnc | .xlDec | .xlEncB | .xlDecB => (left + 15) / 16
  | .rpkEnc | .rpkDec => left

/-- The micro-steps left to a running operation. -/
def State.microStepsLeft (s : State) : Nat :=
  Sys2Proof.Machine.microStepsLeft s.opL (s.outlen.toNat - s.progress.toNat)

section
variable {s : State}

/-- An accepted operation has all its micro-steps left. -/
theorem microStepsLeft_accepted (hi : s.Inv) (hbusy : s.statusBusy = true) (hp : s.progress = 0) :
    s.microStepsLeft = microSteps s.opL s.outlen.toNat := by
  have hout := (hi.operation hbusy).outlen_eq
  have hzero : s.progress.toNat = 0 := by rw [hp]; rfl
  unfold State.microStepsLeft
  cases hop : s.opL <;> rw [hop] at hout <;> simp [hzero, hout, outLen, microStepsLeft, microSteps]

/-- A micro-step leaves one less. -/
theorem MicroStep.microStepsLeft_eq {t : State} (h : MicroStep s t) (hi : s.Inv)
    (hbusy : s.statusBusy = true) (hp : s.progress.toNat < s.outlen.toNat) :
    s.microStepsLeft = t.microStepsLeft + 1 := by
  have hout := (hi.operation hbusy).outlen_eq
  have hprogress := h.progress_eq
  unfold State.microStepsLeft
  rw [h.opL_eq, h.outlen_eq, hprogress]
  cases hop : s.opL <;> rw [hop] at hout <;>
    simp only [outLen, microStepsLeft, progressAfter] at hout ⊢ <;> omega

/-- No micro-step is left when PROGRESS has reached OUTLEN. -/
theorem microStepsLeft_eq_zero_iff (hi : s.Inv) (hbusy : s.statusBusy = true) :
    s.microStepsLeft = 0 ↔ ¬s.progress.toNat < s.outlen.toNat := by
  constructor
  · intro h hp
    obtain ⟨t, ht⟩ := hi.exists_microStep hbusy hp
    have := ht.microStepsLeft_eq hi hbusy hp
    omega
  · intro hp
    have hend : s.outlen.toNat - s.progress.toNat = 0 := by omega
    rw [State.microStepsLeft, hend]
    cases s.opL <;> rfl

end

/-! ### The block alone -/

/-- The block alone takes its micro-steps, BUSY staying 1, and then the completion step. -/
theorem steps_alone (n : Nat) : ∀ s : State, s.Inv → s.statusBusy = true → s.inputs = [] →
    s.microStepsLeft = n →
    (∀ k, k ≤ n → ∃ u, steps k s = .next u ∧ u.statusBusy = true) ∧
    ∃ t, steps (n + 1) s = .next t ∧ t.statusBusy = false ∧ t.statusDone = true ∧
      t.progress = s.outlen ∧ t.outlen = s.outlen := by
  induction n with
  | zero =>
    intro s hi hbusy hin hleft
    have hp := (microStepsLeft_eq_zero_iff hi hbusy).mp hleft
    refine ⟨fun k hk => ⟨s, by rw [Nat.le_zero.mp hk, steps_zero], hbusy⟩, complete s, ?_, rfl, rfl,
      ?_, rfl⟩
    · exact steps_succ 0 ((step_no_input_busy hin hbusy).trans (exec_finished _ hbusy hp))
    · exact BitVec.eq_of_toNat_eq (le_antisymm hi.progress_le (not_lt.mp hp))
  | succ n ih =>
    intro s hi hbusy hin hleft
    rcases hi.exec_opL hbusy with ⟨hp, u, hu, hmicro⟩ | ⟨hp, -⟩
    · have hstep : step s = .next u := (step_no_input_busy hin hbusy).trans hu
      have hcount := hmicro.microStepsLeft_eq hi hbusy hp
      obtain ⟨hrun, t, ht, hidle, hdone, hprogress, hout⟩ :=
        ih u hmicro.inv hmicro.busy (hmicro.inputs_eq.trans hin) (by omega)
      rw [hmicro.outlen_eq] at hprogress hout
      refine ⟨fun k hk => ?_, t, (steps_succ _ hstep).trans ht, hidle, hdone, hprogress, hout⟩
      cases k with
      | zero => exact ⟨s, rfl, hbusy⟩
      | succ k =>
        obtain ⟨v, hv, hvbusy⟩ := hrun k (by omega)
        exact ⟨v, (steps_succ k hstep).trans hv, hvbusy⟩
    · have := (microStepsLeft_eq_zero_iff hi hbusy).mpr hp
      omega

/-- Settles O37: an accepted operation has `microSteps` left, and the block alone takes them. -/
theorem everyAcceptedOperationEnds : Obligations.EveryAcceptedOperationEnds := by
  intro s hi hbusy hp hin
  exact steps_alone _ s hi hbusy hin (microStepsLeft_accepted hi hbusy hp)

/-! ### Under any host -/

/-- Some number of steps leads to BUSY = 0. -/
def Ends (s : State) : Prop := ∃ (k : Nat) (t : State), steps k s = .next t ∧ t.statusBusy = false

theorem ends_of_step {s t : State} (h : step s = .next t) (ht : Ends t) : Ends s := by
  obtain ⟨k, u, hk, hu⟩ := ht
  exact ⟨k + 1, u, (steps_succ k h).trans hk, hu⟩

theorem ends_of_idle {s : State} (h : s.statusBusy = false) : Ends s := ⟨0, s, rfl, h⟩

section
variable {n : Nat}

/-- Every operation of the invariant with fewer than `n` micro-steps left ends. -/
def EndsBelow (n : Nat) : Prop :=
  ∀ s : State, s.Inv → s.statusBusy = true → s.microStepsLeft < n → Ends s

/-- A step of the block takes the operation nearer to its end. -/
theorem ends_of_blockStep (hn : EndsBelow n) {s : State} (hi : s.Inv) (hbusy : s.statusBusy = true)
    (hleft : s.microStepsLeft = n) {l : List Input}
    (h : step s = exec s.opL { s with inputs := l }) :
    Ends s := by
  have hi' := hi.with_inputs l
  rcases hi'.exec_opL hbusy with ⟨hp, u, hu, hmicro⟩ | ⟨-, hu⟩
  · have hcount : s.microStepsLeft = u.microStepsLeft + 1 := hmicro.microStepsLeft_eq hi' hbusy hp
    exact ends_of_step (h.trans hu) (hn u hmicro.inv hmicro.busy (by omega))
  · exact ends_of_step (h.trans hu) (ends_of_idle rfl)

/-- The operation ends if the block gets a turn next. -/
theorem ends_of_blockTurn (hn : EndsBelow n) {s : State} (hi : s.Inv) (hbusy : s.statusBusy = true)
    (hleft : s.microStepsLeft = n) {l : List Input} (hin : s.inputs = .blockTurn :: l) : Ends s :=
  ends_of_blockStep hn hi hbusy hleft (step_blockTurn_busy hin hbusy)

/-- The loop of WAIT gives the block a turn, or its list of turns becomes shorter (R127). -/
theorem ends_of_wait (hn : EndsBelow n) (turns : List Nat) (rest : List Input) : ∀ s : State,
    s.Inv → s.statusBusy = true → s.microStepsLeft = n → s.inputs = .wait turns :: rest →
    Ends s := by
  induction turns with
  | nil =>
    intro s hi hbusy hleft hin
    exact ends_of_step (step_wait_busy hin hbusy) (ends_of_blockTurn hn
      (hi.with_poll _ _) hbusy hleft rfl)
  | cons m turns ih =>
    intro s hi hbusy hleft hin
    refine ends_of_step (step_wait_busy hin hbusy) ?_
    cases m with
    | zero => exact ih _ (hi.with_poll _ _) hbusy hleft rfl
    | succ m => exact ends_of_blockTurn hn (hi.with_poll _ _) hbusy hleft rfl

/-- Whatever inputs are pending, they are used up or the block gets a turn. -/
theorem ends_of_inputs (hn : EndsBelow n) (l : List Input) : ∀ s : State,
    s.Inv → s.statusBusy = true → s.microStepsLeft = n → s.inputs = l → Ends s := by
  induction l with
  | nil =>
    intro s hi hbusy hleft hin
    refine ends_of_blockStep hn hi hbusy hleft (l := []) ?_
    rw [step_no_input_busy hin hbusy, ← hin]
  | cons i rest ih =>
    intro s hi hbusy hleft hin
    cases i with
    | access a =>
      obtain ⟨e, d, p, q, x, y, z, n, r, h, he, hd⟩ :=
        hostAccess_busy a (s := { s with inputs := rest }) hbusy
      have hinv := hi.with_host_fields e d p q x y z s.blk0 s.blk1 s.blk2 s.blk3 n rest r
        (he hi.no_phase_error) fun hb => hd (hi.busy_not_done hb)
      exact ends_of_step ((step_access hin).trans h) (ih _ hinv hbusy hleft rfl)
    | wait turns => exact ends_of_wait hn turns rest s hi hbusy hleft hin
    | waitIrq =>
      by_cases hirq : s.irq = true
      · exact ends_of_step (t := { s with inputs := rest })
          (by simp [step, nextStep, hin, hostWaitIrq, hirq])
          (ih _ (hi.with_inputs rest) hbusy hleft rfl)
      · refine ends_of_blockStep hn hi hbusy hleft (l := s.inputs) ?_
        rw [show step s = blockStep s by simp [step, nextStep, hin, hostWaitIrq, hirq], blockStep,
          if_pos hbusy]
    | blockTurn => exact ends_of_blockTurn hn hi hbusy hleft hin
    | reset => exact ends_of_step (step_reset hin) (ends_of_idle rfl)

end

/-- Settles O38: by induction on the micro-steps left, and below it on the pending inputs. -/
theorem runningOperationEndsUnderEveryHost : Obligations.RunningOperationEndsUnderEveryHost := by
  have hall : ∀ n, EndsBelow n := by
    intro n
    induction n with
    | zero => intro s _ _ h; omega
    | succ n ih =>
      intro s hi hbusy hlt
      rcases Nat.lt_succ_iff_lt_or_eq.mp hlt with h | h
      · exact ih s hi hbusy h
      · exact ends_of_inputs ih s.inputs s hi hbusy h rfl
  intro s hi hbusy
  exact hall (s.microStepsLeft + 1) s hi hbusy (Nat.lt_succ_self _)

end Sys2Proof.Machine
end

section
/-! One micro-step of each command on any source bytes, and its frame (R190–R194, R233–R246). -/

namespace Sys2Proof.Machine

/-- A busy block below OUTLEN takes the micro-step of the command (R157). -/
theorem exec_micro (i : Instr) {s : State} (h : s.statusBusy = true)
    (hp : s.progress.toNat < s.outlen.toNat) : exec i s = microOf i s := by
  rw [exec_eq_lifecycle, lifecycle_micro h hp]

/-! ### The Block Translator -/

/-- Settles O22: the cells read are `cells`, and the block written is their image (R190, R194). -/
theorem translationMicroStep : Obligations.TranslationMicroStep := by
  intro d f s base cnt hd hbusy hbase hlt hcnt hsrc hdst
  have hmicro : microOf d = translateBlock f := by
    rcases hd with ⟨rfl, rfl⟩ | ⟨rfl, rfl⟩ <;> rfl
  obtain ⟨cells, n, hlen, hstep, hcells⟩ :=
    translateBlock_spec (f := f) hbase hcnt (by omega) (by omega)
  have houtside := Memory.sameOutside_setBytes s.mem (s.dstL.toNat + base) (cells.map f)
  rw [List.length_map, hlen] at houtside
  refine ⟨_, n, ?_, houtside, fun k hk => ⟨cells[k], ?_, fun b hb => ?_⟩⟩
  · rw [exec_micro d hbusy (hbase ▸ hlt), hmicro, hstep]
  · rw [Memory.get_setBytes_inside _ _ _ _ (by simpa [hlen] using hk), List.getElem_map]
  · have := hcells k b hk hb
    rwa [List.getElem?_eq_getElem (hlen ▸ hk), Option.some.injEq] at this

/-- Settles O23: the words are those of `mapLanes`, whose lanes are `mapLanes_lane`. -/
theorem laneMicroStep : Obligations.LaneMicroStep := by
  intro d f s hd hbusy hp
  have hmicro : microOf d = translateLanes f := by
    rcases hd with ⟨rfl, rfl⟩ | ⟨rfl, rfl⟩ <;> rfl
  refine ⟨_, _, _, _, ?_, mapLanes_lane f s⟩
  rw [exec_micro d hbusy hp, hmicro]
  rfl

/-! ### The Bit Repacker -/

theorem usesPrior_iff (eph : BitVec 2) : usesPrior eph = true ↔ eph = 0b01 ∨ eph = 0b10 := by
  simp [usesPrior]

/-- Settles O28: `emitSymbol_spec`, with the cursor of `encode_cursor_step` and `symbolOf` read off
in each phase. -/
theorem repackEncodeMicroStep : Obligations.RepackEncodeMicroStep := by
  rintro s i hbusy hp rfl - hprior hsrc hdst
  rw [← usesPrior_iff] at hprior
  obtain ⟨p, c, n, hstep, hprev, hcur⟩ := emitSymbol_spec hprior hsrc hdst
  obtain ⟨hindex, hphase⟩ := encode_cursor_step s.ecur.toNat s.eph
  rw [hindex, hphase] at hstep
  refine ⟨n, p, c, _, (exec_micro .rpkEnc hbusy hp).trans hstep,
    fun b hb hu => hprev b ((usesPrior_iff _).mpr hu) hb, hcur, ?_, ?_, ?_, ?_⟩
  all_goals intro h; rw [h]; rfl

/-- Settles O30: `emitByte_spec`, with `byteOf` read off in each phase; in the last the current cell
is not shifted. -/
theorem repackDecodeMicroStep : Obligations.RepackDecodeMicroStep := by
  rintro s p hbusy hp rfl hlegal hsrc hdst
  obtain ⟨a, b, n, hstep, ha, hb⟩ := emitByte_spec hlegal hsrc hdst
  refine ⟨n, a, b, _, (exec_micro .rpkDec hbusy hp).trans hstep, ha, hb, ?_, ?_, ?_⟩
  · intro h; rw [h]; rfl
  · intro h; rw [h]; rfl
  · intro h; rw [h]; exact congrArg (_ ||| ·) (BitVec.ushiftRight_zero b)

/-- Settles O18: the phase is looked at before any cell is (R245). -/
theorem illegalPhaseAborts : Obligations.IllegalPhaseAborts := by
  intro s hbusy hp hphase
  have habort : emitByte s = .next (abort .phase s) := by rw [emitByte, if_pos hphase]
  exact (exec_micro .rpkDec hbusy hp).trans habort

end Sys2Proof.Machine
end

section
/-! The block's steps and the host's registers (R60, R346): a micro-step reads the latched copies
alone, so other values in SRC, DST, LEN and INTEN leave it as it is. -/

namespace Sys2Proof.Machine

/-! ### The course of each micro-step -/

theorem translateBlock_eq_next_iff {f : Byte → Byte} {s t : State} :
    translateBlock f s = .next t ↔ ∃ cnt cells s₁ s₂,
      cnt = min 16 (s.outlen.toNat - s.progress.toNat) ∧
      readCells cnt (srcCell s s.progress.toNat) s = .ok (cells, s₁) ∧
      writeCells (((cells ++ List.replicate (16 - cnt) 0x00).map f).take cnt)
        (dstCell s₁ s.progress.toNat) s₁ = .ok s₂ ∧
      { s₂ with progress := BitVec.ofNat 32 (s.progress.toNat + cnt) } = t := by
  constructor
  · intro h
    simp only [translateBlock] at h
    split at h
    · cases h
    · rename_i hread
      split at h
      · cases h
      · rename_i hwrite
        exact ⟨_, _, _, _, rfl, hread, hwrite, by simpa using h⟩
  · rintro ⟨cnt, cells, s₁, s₂, rfl, hread, hwrite, rfl⟩
    simp only [translateBlock, hread, hwrite]

theorem emitSymbol_eq_next_iff {s t : State} :
    emitSymbol s = .next t ↔ ∃ p s₁ c s₂ s₃, readPriorIfUsed s = .ok (p, s₁) ∧
      readSource s.ecur.toNat s₁ = .ok (c, s₂) ∧
      memWrite (dstCell s s.progress.toNat) (symbolOf s.eph p c) s₂ = .ok s₃ ∧
      { s₃ with
        progress := s.progress + 1
        ecur := BitVec.ofNat 32 (nextByteIndex s.ecur.toNat s.eph)
        eph := nextEph s.ecur.toNat s.eph } = t := by
  constructor
  · intro h
    simp only [emitSymbol] at h
    split at h
    · cases h
    · rename_i hprior
      split at h
      · cases h
      · rename_i hcurrent
        split at h
        · cases h
        · rename_i hwrite
          exact ⟨_, _, _, _, _, hprior, hcurrent, hwrite, by simpa using h⟩
  · rintro ⟨p, s₁, c, s₂, s₃, hprior, hcurrent, hwrite, rfl⟩
    simp only [emitSymbol, hprior, hcurrent, hwrite]

theorem emitByte_eq_next_iff {s t : State} :
    emitByte s = .next t ↔ (s.dlh = 0b00 ∧ abort .phase s = t) ∨
      (s.dlh ≠ 0b00 ∧ ∃ a s₁ b s₂ s₃, memRead (srcCell s s.dcur.toNat) s = .ok (a, s₁) ∧
        memRead (srcCell s (s.dcur.toNat + 1)) s₁ = .ok (b, s₂) ∧
        memWrite (dstCell s s.progress.toNat) (byteOf (2 * s.dlh.toNat) a b) s₂ = .ok s₃ ∧
        { s₃ with
          progress := s.progress + 1
          dcur :=
            BitVec.ofNat 32 (if 2 * s.dlh.toNat - 2 = 0 then s.dcur.toNat + 2 else s.dcur.toNat + 1)
          dlh := if 2 * s.dlh.toNat - 2 = 0 then 0b11
            else BitVec.ofNat 2 ((2 * s.dlh.toNat - 2) / 2) } = t) := by
  constructor
  · intro h
    simp only [emitByte] at h
    split at h
    · rename_i hphase
      exact .inl ⟨hphase, by simpa using h⟩
    · rename_i hphase
      split at h
      · cases h
      · rename_i hprevious
        split at h
        · cases h
        · rename_i hcurrent
          split at h
          · cases h
          · rename_i hwrite
            exact .inr ⟨hphase, _, _, _, _, _, hprevious, hcurrent, hwrite, by simpa using h⟩
  · rintro (⟨hphase, rfl⟩ | ⟨hphase, a, s₁, b, s₂, s₃, hprevious, hcurrent, hwrite, rfl⟩)
    · rw [emitByte, if_pos hphase]
    · simp only [emitByte, hphase, if_false, hprevious, hcurrent, hwrite]

/-! ### Other values in the host's registers -/

/-- `s` with SRC, DST, LEN and INTEN of `r`. -/
def State.withRegistersOf (r s : State) : State :=
  { s with src := r.src, dst := r.dst, len := r.len, doneIE := r.doneIE, errIE := r.errIE }

section
variable {r s t : State}

theorem fetchByte_withRegistersOf (a : Nat) :
    fetchByte a (r.withRegistersOf s) =
      ((fetchByte a s).1, r.withRegistersOf (fetchByte a s).2) := by
  unfold fetchByte State.withRegistersOf
  dsimp only
  cases s.mem.get a <;> rfl

theorem memRead_withRegistersOf {a : Nat} {b : Byte} (h : memRead a s = .ok (b, t)) :
    memRead a (r.withRegistersOf s) = .ok (b, r.withRegistersOf t) := by
  unfold memRead at h ⊢
  by_cases ha : a < s.cfg.bufSize
  · rw [if_pos ha, Except.ok.injEq] at h
    refine (if_pos ha).trans ?_
    rw [fetchByte_withRegistersOf, h]
  · rw [if_neg ha] at h
    cases h

theorem memWrite_withRegistersOf {a : Nat} {b : Byte} (h : memWrite a b s = .ok t) :
    memWrite a b (r.withRegistersOf s) = .ok (r.withRegistersOf t) := by
  obtain ⟨ha, rfl⟩ := memWrite_frame h
  exact memWrite_ok (s := r.withRegistersOf s) b ha

theorem readCells_withRegistersOf (n : Nat) : ∀ {a : Nat} {s : State} {bs : List Byte},
    readCells n a s = .ok (bs, t) →
      readCells n a (r.withRegistersOf s) = .ok (bs, r.withRegistersOf t) := by
  induction n with
  | zero => intro a s bs h; cases h; rfl
  | succ n ih =>
    intro a s bs h
    simp only [readCells] at h ⊢
    split at h
    · cases h
    · rename_i hread
      split at h
      · cases h
      · rename_i hrest
        cases h
        simp only [memRead_withRegistersOf hread, ih hrest]

theorem writeCells_withRegistersOf (bs : List Byte) : ∀ {a : Nat} {s : State},
    writeCells bs a s = .ok t →
      writeCells bs a (r.withRegistersOf s) = .ok (r.withRegistersOf t) := by
  induction bs with
  | nil => intro a s h; cases h; rfl
  | cons b bs ih =>
    intro a s h
    simp only [writeCells] at h ⊢
    split at h
    · cases h
    · rename_i hwrite
      simp only [memWrite_withRegistersOf hwrite, ih h]

theorem readSource_withRegistersOf {k : Nat} {b : Byte} (h : readSource k s = .ok (b, t)) :
    readSource k (r.withRegistersOf s) = .ok (b, r.withRegistersOf t) := by
  unfold readSource at h ⊢
  by_cases hk : k < s.lenL.toNat
  · rw [if_pos hk] at h
    exact (if_pos hk).trans (memRead_withRegistersOf h)
  · rw [if_neg hk] at h
    cases h
    exact if_neg hk

theorem readPriorIfUsed_withRegistersOf {b : Byte} (h : readPriorIfUsed s = .ok (b, t)) :
    readPriorIfUsed (r.withRegistersOf s) = .ok (b, r.withRegistersOf t) := by
  unfold readPriorIfUsed at h ⊢
  by_cases hu : usesPrior s.eph = true
  · rw [if_pos hu] at h
    refine (if_pos hu).trans (?_ : readPrior s.ecur.toNat _ = _)
    cases hi : s.ecur.toNat with
    | zero => rw [hi] at h; cases h
    | succ k => rw [hi] at h; exact readSource_withRegistersOf h
  · rw [if_neg hu] at h
    cases h
    exact if_neg hu

/-- A micro-step reads none of the host's registers and leaves them as they are. -/
theorem microOf_withRegistersOf {i : Instr} (h : microOf i s = .next t) :
    microOf i (r.withRegistersOf s) = .next (r.withRegistersOf t) := by
  have htranslate : ∀ f, translateBlock f s = .next t →
      translateBlock f (r.withRegistersOf s) = .next (r.withRegistersOf t) := by
    intro f h
    obtain ⟨cnt, cells, s₁, s₂, hcnt, hread, hwrite, rfl⟩ := translateBlock_eq_next_iff.mp h
    exact translateBlock_eq_next_iff.mpr ⟨cnt, cells, r.withRegistersOf s₁, r.withRegistersOf s₂,
      hcnt, readCells_withRegistersOf _ hread, writeCells_withRegistersOf _ hwrite, rfl⟩
  cases i with
  | nop => cases h; rfl
  | xlEnc => exact htranslate te h
  | xlDec => exact htranslate td h
  | xlEncB => cases h; rfl
  | xlDecB => cases h; rfl
  | rpkEnc =>
    obtain ⟨p, s₁, c, s₂, s₃, hprior, hcurrent, hwrite, rfl⟩ := emitSymbol_eq_next_iff.mp h
    exact emitSymbol_eq_next_iff.mpr ⟨p, _, c, _, _, readPriorIfUsed_withRegistersOf hprior,
      readSource_withRegistersOf hcurrent, memWrite_withRegistersOf hwrite, rfl⟩
  | rpkDec =>
    rcases emitByte_eq_next_iff.mp h with
      ⟨hphase, rfl⟩ | ⟨hphase, a, s₁, b, s₂, s₃, hprevious, hcurrent, hwrite, rfl⟩
    · exact emitByte_eq_next_iff.mpr (.inl ⟨hphase, rfl⟩)
    · exact emitByte_eq_next_iff.mpr (.inr ⟨hphase, a, _, b, _, _,
        memRead_withRegistersOf hprevious, memRead_withRegistersOf hcurrent,
        memWrite_withRegistersOf hwrite, rfl⟩)

/-- A step of a running operation does not depend on the host's registers. -/
theorem exec_withRegistersOf {i : Instr} (hbusy : s.statusBusy = true) (h : exec i s = .next t) :
    exec i (r.withRegistersOf s) = .next (r.withRegistersOf t) := by
  by_cases hp : s.progress.toNat < s.outlen.toNat
  · rw [exec_micro i hbusy hp] at h
    exact (exec_micro i (s := r.withRegistersOf s) hbusy hp).trans (microOf_withRegistersOf h)
  · cases (exec_finished i hbusy hp).symm.trans h
    exact exec_finished i (s := r.withRegistersOf s) hbusy hp

end

/-- Settles O52: no operation of a micro-step touches the host's registers. -/
theorem blockStepsIgnoreTheHostRegisters : Obligations.BlockStepsIgnoreTheHostRegisters := by
  intro i s t x y z p q hbusy h
  exact exec_withRegistersOf (r := { s with src := x, dst := y, len := z, doneIE := p, errIE := q })
    hbusy h

end Sys2Proof.Machine
end

section
/-! What a step of a command does to IRQ (R313), and that no step changes the parameters (R8). -/

namespace Sys2Proof.Machine

/-! ### One step of a command -/

/-- A step of a running operation keeps the parameters, and BUSY with them unless it is the
completion step or an abort (R157, R305). -/
theorem exec_busy_cases {i : Instr} {s t : State} (hbusy : s.statusBusy = true)
    (h : exec i s = .next t) :
    t.cfg = s.cfg ∧ (t.statusBusy = true ∨ t = complete s ∨ t = abort .phase s) := by
  by_cases hp : s.progress.toNat < s.outlen.toNat
  · rw [exec_micro i hbusy hp] at h
    rcases microOf_frame h with ⟨_, _, _, _, _, _, _, _, _, _, _, rfl⟩ | rfl | ⟨rfl, -⟩
    · exact ⟨rfl, .inl hbusy⟩
    · exact ⟨rfl, .inr (.inl rfl)⟩
    · exact ⟨rfl, .inr (.inr rfl)⟩
  · cases (exec_finished i hbusy hp).symm.trans h
    exact ⟨rfl, .inr (.inl rfl)⟩

/-- A command that meets an idle block is presented (R151). -/
theorem exec_idle (d : Instr) {s : State} (h : s.statusBusy = false) :
    exec d s = .next (present d s) := by
  rw [exec_eq_lifecycle, lifecycle_idle h]

/-! ### IRQ -/

/-- Settles O54: acceptance clears DONE, and completion and abort set it. -/
theorem interruptFollowsTheOperation : Obligations.InterruptFollowsTheOperation := by
  intro d s t hdone herr h
  refine ⟨fun hidle hbusy => ?_, fun hbusy hidle => ?_⟩
  · cases (exec_idle d hidle).symm.trans h
    rcases present_cases d s with hp | hp | ⟨hp, -⟩ <;> rw [hp] at hbusy ⊢
    · exact absurd hbusy (by simp [reject, hidle])
    · exact absurd hbusy (by simp [reject, hidle])
    · simp [State.irq, herr]
  · obtain ⟨-, hrun | rfl | rfl⟩ := exec_busy_cases hbusy h
    · exact absurd hidle (by simp [hrun])
    · simp [State.irq, hdone, herr]
    · simp [State.irq, hdone, herr]

/-! ### The parameters -/

theorem present_cfg (d : Instr) (s : State) : (present d s).cfg = s.cfg := by
  rcases present_cases d s with h | h | ⟨h, -⟩ <;> rw [h] <;> rfl

theorem exec_cfg {i : Instr} {s t : State} (h : exec i s = .next t) : t.cfg = s.cfg := by
  by_cases hbusy : s.statusBusy = true
  · exact (exec_busy_cases hbusy h).1
  · cases (exec_idle i (by simpa using hbusy)).symm.trans h
    exact present_cfg i s

theorem hostAccess_cfg {a : HostAccess} {s t : State} (h : hostAccess a s = .next t) :
    t.cfg = s.cfg := by
  rcases hostAccess_cases a s with
    ⟨r, n, ha⟩ | ⟨-, ha⟩ | ⟨off, bs, -, -, ha⟩ | ⟨off, v, -, ha⟩ | ⟨w, ha⟩
  · cases ha.symm.trans h; rfl
  · cases ha.symm.trans h; rfl
  · cases ha.symm.trans h; rfl
  · obtain ⟨_, _, _, _, _, _, _, _, _, _, _, hw, -⟩ :=
      writeRegister_spec off v { s with bus := .written }
    rw [hw] at ha
    cases ha.symm.trans h; rfl
  · rcases writeCommand_cases w { s with bus := .written } with ⟨-, hw⟩ | ⟨-, hw⟩ | ⟨-, i, -, hw⟩
    · cases (ha.trans hw).symm.trans h; rfl
    · cases (ha.trans hw).symm.trans h; rfl
    · exact exec_cfg (s := { s with bus := .written }) ((ha.trans hw).symm.trans h)

/-- Settles O40: whichever agent the step is, it writes no parameter. -/
theorem parametersNeverChange : Obligations.ParametersNeverChange := by
  intro s t h
  rcases step_cases s with ⟨l, hs⟩ | ⟨-, l, hs⟩ | ⟨a, l, -, hs⟩ | ⟨l, r, hs⟩ | ⟨l, -, hs⟩
  · cases hs.symm.trans h; rfl
  · exact exec_cfg (s := { s with inputs := l }) (hs.symm.trans h)
  · exact hostAccess_cfg (s := { s with inputs := l }) (hs.symm.trans h)
  · cases hs.symm.trans h; rfl
  · cases hs.symm.trans h; rfl

end Sys2Proof.Machine
end

section
/-! The CMD write while BUSY = 0 (R124, R151–R156): the word decoded, the two checks, acceptance. -/

namespace Sys2Proof.Machine

/-! ### Decoding -/

/-- Settles O2: the seven words are `encode` of their commands; the two illegal ones are refused at
OP and at RSV. -/
theorem tableWordsDecode : Obligations.TableWordsDecode :=
  ⟨decode_encode .nop, decode_encode .xlEnc, decode_encode .xlDec, decode_encode .xlEncB,
    decode_encode .xlDecB, decode_encode .rpkEnc, decode_encode .rpkDec,
    (decode_eq_reservedOpcode_iff _).mpr (by decide),
    (decode_eq_reservedBits_iff _).mpr (by decide)⟩

theorem writeCommand_legal {w : Word} {i : Instr} {s : State} (h : s.statusBusy = false)
    (hw : decode w = .ok i) : writeCommand w s = exec i s := by
  simp [writeCommand, h, hw]

theorem writeCommand_illegal {w : Word} {e : DecodeError} {s : State} (h : s.statusBusy = false)
    (hw : decode w = .error e) : writeCommand w s = .next (recordError .illCmd s) := by
  simp [writeCommand, h, hw, reject]

/-- Settles O3: the host's step is the CMD write, which runs what the word decodes to. -/
theorem stepRunsDecodedCommand : Obligations.StepRunsDecodedCommand := by
  intro s w i rest hin hidle hw
  exact (step_commandWrite hin).trans (writeCommand_legal hidle hw)

/-- Settles O4: the input placed is the CMD write of `encode i`, and the pending inputs after it are
those of `s`. -/
theorem placedCommandRunsNext : Obligations.PlacedCommandRunsNext := by
  intro s i
  have hword : BitVec.ofNat 32 ((encode i).toNat % 2 ^ 32) = encode i := by
    rw [Nat.mod_eq_of_lt (encode i).isLt, BitVec.ofNat_toNat, BitVec.setWidth_eq]
  have hin : (s.withFetchWord 32 (encode i).toNat).inputs =
      commandInput (encode i) :: s.inputs := by
    rw [State.withFetchWord, hword]; rfl
  exact stepRunsDecodedCommand _ _ i s.inputs hin rfl (decode_encode i)

/-- Settles O9: with RSV set the word is refused at RSV, otherwise OP is one of the reserved values.
-/
theorem illegalCommandIsRejected : Obligations.IllegalCommandIsRejected := by
  intro s w rest hin hidle hillegal
  obtain ⟨-, hrsv, hop⟩ := decodeReadsExactlyTheSevenWords w
  obtain ⟨e, he⟩ : ∃ e, decode w = .error e := by
    by_cases h : w.toNat / 16 = 0
    · exact ⟨_, hop.mpr ⟨h, hillegal.resolve_left (not_not.mpr h)⟩⟩
    · exact ⟨_, hrsv.mpr h⟩
  exact (step_commandWrite hin).trans (writeCommand_illegal hidle he)

/-! ### The checks -/

/-- The commands whose ranges are checked (R304). -/
theorem usesBuffer_iff (d : Instr) :
    usesBuffer d = true ↔ d = .xlEnc ∨ d = .xlDec ∨ d = .rpkEnc ∨ d = .rpkDec := by
  cases d <;> simp [usesBuffer]

section
variable {d : Instr} {s : State}

theorem present_range (hd : usesBuffer d = true)
    (h : ¬(s.src.toNat + s.len.toNat ≤ s.cfg.bufSize ∧
      s.dst.toNat + outLen d s.len.toNat ≤ s.cfg.bufSize)) :
    present d s = recordError .range s := by
  rw [← rangeOK_iff, Bool.not_eq_true] at h
  simp [present, hd, h, reject]

theorem present_overlap (hd : usesBuffer d = true)
    (hsrc : s.src.toNat + s.len.toNat ≤ s.cfg.bufSize)
    (hdst : s.dst.toNat + outLen d s.len.toNat ≤ s.cfg.bufSize)
    (h : ¬RangesDisjoint s.src.toNat s.len.toNat s.dst.toNat (outLen d s.len.toNat)) :
    present d s = recordError .overlap s := by
  rw [← overlap_eq_false_iff, Bool.not_eq_false] at h
  simp [present, hd, rangeOK_iff.mpr ⟨hsrc, hdst⟩, h, reject]

end

/-- Settles O10: the range check is the first of R151, so an overlap does not matter. -/
theorem rangeIsRejected : Obligations.RangeIsRejected := by
  intro d s hd hidle hrange
  rw [exec_idle d hidle, present_range ((usesBuffer_iff d).mpr hd) hrange]
  rfl

/-- Settles O11: a shared address contradicts each way of `RangesDisjoint`. -/
theorem overlapIsRejected : Obligations.OverlapIsRejected := by
  intro d s x hd hidle hsrc hdst hsrc₁ hsrc₂ hdst₁ hdst₂
  have hshared : ¬RangesDisjoint s.src.toNat s.len.toNat s.dst.toNat (outLen d s.len.toNat) := by
    unfold RangesDisjoint; omega
  rw [exec_idle d hidle, present_overlap ((usesBuffer_iff d).mpr hd) hsrc hdst hshared]
  rfl

/-! ### Acceptance -/

/-- A command of no buffer range has no check to fail (R151). -/
theorem present_unchecked {d : Instr} {s : State} (hd : usesBuffer d = false) :
    present d s = accept d (outLen d s.len.toNat) s :=
  present_accepts fun h => absurd h (by simp [hd])

/-- Settles O12: none of the three is checked. -/
theorem uncheckedCommandsAreAccepted : Obligations.UncheckedCommandsAreAccepted := by
  intro d s hd hidle
  have hunchecked : usesBuffer d = false := by rcases hd with rfl | rfl | rfl <;> rfl
  rw [exec_idle d hidle, present_unchecked hunchecked]
  rcases hd with rfl | rfl | rfl <;> rfl

/-- Settles O13: the checks pass, and OUTLEN is LEN. -/
theorem translationsAreAccepted : Obligations.TranslationsAreAccepted := by
  intro d s hd hidle hsrc hdst hdisj
  have hout : outLen d s.len.toNat = s.len.toNat := by rcases hd with rfl | rfl <;> rfl
  have hlen : BitVec.ofNat 32 s.len.toNat = s.len := by simp
  rw [exec_idle d hidle, present_accepts fun _ => ⟨hsrc, by rwa [hout], by rwa [hout]⟩, hout,
    accept, hlen]
  rcases hd with rfl | rfl <;> rfl

/-- Settles O14: the checks pass, and `accept` makes the encode cursor fresh. -/
theorem repackEncodeIsAccepted : Obligations.RepackEncodeIsAccepted := by
  rintro s out hidle rfl hsrc hdst hdisj
  rw [exec_idle .rpkEnc hidle, present_accepts (d := .rpkEnc) fun _ => ⟨hsrc, hdst, hdisj⟩]
  rfl

/-- Settles O15: the checks pass, and `accept` makes the decode cursor fresh. -/
theorem repackDecodeIsAccepted : Obligations.RepackDecodeIsAccepted := by
  rintro s out hidle rfl hsrc hdst hdisj
  rw [exec_idle .rpkDec hidle, present_accepts (d := .rpkDec) fun _ => ⟨hsrc, hdst, hdisj⟩]
  rfl

end Sys2Proof.Machine
end

section
/-! Whose turn it is (R127, R157, R345): the block's own steps, WAIT, and waiting for IRQ. -/

namespace Sys2Proof.Machine

/-- Settles O5: the four cases of the block's step. -/
theorem blockStepsTheLatchedCommand : Obligations.BlockStepsTheLatchedCommand := fun _ =>
  ⟨step_no_input_busy, step_no_input_idle, fun _ => step_blockTurn_busy,
    fun _ => step_blockTurn_idle⟩

/-- Bit 1 of STATUS is DONE (R38). -/
theorem statusWord_bit1 (s : State) : (statusWord s).getLsbD 1 = s.statusDone := by
  simp only [statusWord, BitVec.getLsbD_append]; simp

/-- A turn of the loop of WAIT is the host's read of STATUS (R127). -/
theorem step_wait_eq_hostAccess {s : State} {turns : List Nat} {rest : List Input}
    (h : s.inputs = .wait turns :: rest) :
    step s = hostAccess (.read .reg statusOffset 4)
      { s with inputs := afterPoll turns rest (statusWord s) } := by
  simp only [step, nextStep, h, hostWait]
  rfl

theorem afterPoll_statusWord (turns : List Nat) (rest : List Input) (s : State) :
    afterPoll turns rest (statusWord s) =
      if s.statusBusy then List.replicate (turns.headD 1) .blockTurn ++ .wait turns.tail :: rest
      else rest := by
  rw [afterPoll, statusWord_bit0]

theorem step_waitIrq {s : State} {rest : List Input} (h : s.inputs = .waitIrq :: rest) :
    step s = if s.irq then .next { s with inputs := rest } else blockStep s := by
  simp only [step, nextStep, h, hostWaitIrq]

/-- Settles O6: the poll's result is STATUS, whose bit 0 decides what is left of the program. -/
theorem waitingGivesTheBlockItsSteps : Obligations.WaitingGivesTheBlockItsSteps := by
  refine fun s turns rest => ⟨fun hin => ?_, fun hin => ?_⟩
  · refine ⟨afterPoll turns rest (statusWord s), statusWord s, step_wait_eq_hostAccess hin, ?_,
      statusWord_bit0 s, statusWord_bit1 s, fun h => ?_, fun h => ?_⟩
    · rw [step_wait hin, afterPoll_statusWord]
    · rw [afterPoll, if_pos h]
    · rw [afterPoll, if_neg (by rw [h]; exact Bool.false_ne_true)]
  · rw [step_waitIrq hin]
    refine ⟨fun hirq => if_pos hirq, fun hirq hbusy => ?_, fun hirq hidle => ?_⟩
    · rw [if_neg (by simp [hirq]), blockStep, if_pos hbusy]
    · rw [if_neg (by simp [hirq]), blockStep, if_neg (by simp [hidle])]

end Sys2Proof.Machine
end

section
/-! The host's accesses one by one (R32–R53, R81–R98): legality, the register map, BUF and BLK idle
and busy, and the address space. -/

namespace Sys2Proof.Machine

/-! ### The branches of an access -/

section
variable {s : State} {off n : Nat} {v : Word}

theorem hostAccess_reg_illegal (h : ¬(n = 4 ∧ off % 4 = 0 ∧ off < 0x100)) :
    hostAccess (.read .reg off n) s = .next { s with bus := .busError } ∧
      hostAccess (.write .reg off n v) s = .next { s with bus := .busError } := by
  rw [← regAccessLegal_iff, Bool.not_eq_true] at h
  simp [hostAccess, h, reply]

theorem hostAccess_buf_illegal
    (h : ¬((n = 1 ∨ n = 2 ∨ n = 4) ∧ off % n = 0 ∧ off + n ≤ s.cfg.bufSize)) :
    hostAccess (.read .buf off n) s = .next { s with bus := .busError } ∧
      hostAccess (.write .buf off n v) s = .next { s with bus := .busError } := by
  rw [← bufAccessLegal_iff, Bool.not_eq_true] at h
  simp [hostAccess, h, reply]

/-- A legal register read that is not one of BLK0 to BLK3 while BUSY = 1. -/
theorem hostAccess_reg_read (h : off % 4 = 0 ∧ off < 0x100)
    (hblk : (s.statusBusy && isBlkOffset off) = false) :
    hostAccess (.read .reg off 4) s = .next { s with bus := .data (readRegister off s) } := by
  have hlegal := regAccessLegal_iff.mpr ⟨rfl, h⟩
  simp only [hostAccess, hlegal, hblk, Bool.not_true, Bool.false_eq_true, if_false, reply]

/-- A legal register write that is not the CMD write, nor one of BLK0 to BLK3 while BUSY = 1. -/
theorem hostAccess_reg_write (h : off % 4 = 0 ∧ off < 0x100) (hcmd : off ≠ cmdOffset)
    (hblk : (s.statusBusy && isBlkOffset off) = false) :
    hostAccess (.write .reg off 4 v) s =
      .next (writeRegister off v { s with bus := .written }) := by
  have hlegal := regAccessLegal_iff.mpr ⟨rfl, h⟩
  simp only [hostAccess, hlegal, hcmd, hblk, Bool.not_true, Bool.false_eq_true, if_false, reply]

theorem hostAccess_buf_read (h : (n = 1 ∨ n = 2 ∨ n = 4) ∧ off % n = 0 ∧ off + n ≤ s.cfg.bufSize)
    (hidle : s.statusBusy = false) :
    hostAccess (.read .buf off n) s = .next (replyBytes (fetchBytes n off s)) := by
  simp only [hostAccess, bufAccessLegal_iff.mpr h, hidle, Bool.not_true, Bool.false_eq_true,
    if_false]

theorem hostAccess_buf_write (h : (n = 1 ∨ n = 2 ∨ n = 4) ∧ off % n = 0 ∧ off + n ≤ s.cfg.bufSize)
    (hidle : s.statusBusy = false) :
    hostAccess (.write .buf off n v) s =
      .next { s with bus := .written, mem := s.mem.setBytes off (bytesOfWord n v) } := by
  simp only [hostAccess, bufAccessLegal_iff.mpr h, hidle, Bool.not_true, Bool.false_eq_true,
    if_false, reply]

/-- The legal accesses that R97 and R98 hold up while BUSY = 1: of BUF, and of BLK0 to BLK3. -/
def HeldWhileBusy (c : Config) (r : Region) (off n : Nat) : Prop :=
  (r = .buf ∧ (n = 1 ∨ n = 2 ∨ n = 4) ∧ off % n = 0 ∧ off + n ≤ c.bufSize) ∨
    (r = .reg ∧ n = 4 ∧ (off = 0x040 ∨ off = 0x044 ∨ off = 0x048 ∨ off = 0x04C))

theorem HeldWhileBusy.width_le {c : Config} {r : Region} (h : HeldWhileBusy c r off n) : n ≤ 4 := by
  unfold HeldWhileBusy at h; omega

theorem hostAccess_write_held {r : Region} (h : HeldWhileBusy s.cfg r off n)
    (hbusy : s.statusBusy = true) :
    hostAccess (.write r off n v) s = .next (recordError .busyWr { s with bus := .written }) := by
  rcases h with ⟨rfl, hlegal⟩ | ⟨rfl, rfl, hoff⟩
  · simp only [hostAccess, bufAccessLegal_iff.mpr hlegal, hbusy, Bool.not_true, Bool.false_eq_true,
      if_false, if_true, reply]
  · have hlegal : regAccessLegal off 4 = true := regAccessLegal_iff.mpr ⟨rfl, by omega, by omega⟩
    have hcmd : off ≠ cmdOffset := by unfold cmdOffset; omega
    simp only [hostAccess, hlegal, hcmd, isBlkOffset_iff.mpr hoff, hbusy, Bool.not_true,
      Bool.and_self, Bool.false_eq_true, if_false, if_true, reply]

theorem hostAccess_read_held {r : Region} (h : HeldWhileBusy s.cfg r off n)
    (hbusy : s.statusBusy = true) :
    hostAccess (.read r off n) s = .next (replyBytes (drawBytes n s)) := by
  rcases h with ⟨rfl, hlegal⟩ | ⟨rfl, rfl, hoff⟩
  · simp only [hostAccess, bufAccessLegal_iff.mpr hlegal, hbusy, Bool.not_true, Bool.false_eq_true,
      if_false, if_true]
  · have hlegal : regAccessLegal off 4 = true := regAccessLegal_iff.mpr ⟨rfl, by omega, by omega⟩
    simp only [hostAccess, hlegal, isBlkOffset_iff.mpr hoff, hbusy, Bool.not_true, Bool.and_self,
      Bool.false_eq_true, if_false, if_true]

end

/-! ### Bus errors -/

/-- Settles O41: legality comes before every other rule of an access. -/
theorem illegalRegisterAccessIsABusError : Obligations.IllegalRegisterAccessIsABusError := by
  intro s off n v rest hillegal hin
  obtain ⟨hread, hwrite⟩ :=
    hostAccess_reg_illegal (s := { s with inputs := rest }) (v := v) hillegal
  rcases hin with hin | hin
  · exact (step_access hin).trans hread
  · exact (step_access hin).trans hwrite

/-- Settles O42: the same for the buffer region. -/
theorem illegalBufferAccessIsABusError : Obligations.IllegalBufferAccessIsABusError := by
  intro s off n v rest hillegal hin
  obtain ⟨hread, hwrite⟩ :=
    hostAccess_buf_illegal (s := { s with inputs := rest }) (v := v) hillegal
  rcases hin with hin | hin
  · exact (step_access hin).trans hread
  · exact (step_access hin).trans hwrite

/-! ### The register map -/

/-- The reserved offsets, and those beyond the map, read 0 (R33). -/
theorem readRegister_reserved {off : Nat} (s : State)
    (h : (0x034 ≤ off ∧ off ≤ 0x03C) ∨ 0x050 ≤ off) : readRegister off s = 0 := by
  unfold readRegister
  split
  case h_18 => rfl
  all_goals exfalso; omega

/-- Settles O43: the reply is `readRegister`, which is the map, and the composed words are their
fields' sums. -/
theorem registerReadsReturnTheMap : Obligations.RegisterReadsReturnTheMap := by
  intro s off rest hin halign hlt hblk
  have hfree : (s.statusBusy && isBlkOffset off) = false := by
    cases hbusy : s.statusBusy
    · rfl
    · have := hblk hbusy
      rw [Bool.true_and, ← Bool.not_eq_true, isBlkOffset_iff]
      omega
  have hstep := (step_access hin).trans
    (hostAccess_reg_read (s := { s with inputs := rest }) ⟨halign, hlt⟩ hfree)
  have hstatus : (statusWord s).toNat = s.statusBusy.toNat + 2 * s.statusDone.toNat +
      4 * (if s.err = 0 then 0 else 1) + 16 * (opcode s.lastOp).toNat := by
    have herr : s.statusErr.toNat = if s.err = 0 then 0 else 1 := by
      by_cases h : s.err = 0
      · rw [if_pos h, State.statusErr, h]; rfl
      · rw [if_neg h, (statusErr_iff s).mpr h]; rfl
    rw [statusWord_toNat, herr]
  refine ⟨readRegister off s, hstep, ?_, ?_, ?_, ?_, ?_, ?_, ?_, ?_, ?_, ?_, ?_, ?_, ?_,
    fun h => readRegister_reserved s (.inl h), ?_, ?_, ?_, ?_,
    fun h => readRegister_reserved s (.inr h)⟩ <;> rintro rfl
  case refine_3 => exact hstatus
  case refine_4 => exact errWord_toNat s
  case refine_5 => exact intenWord_toNat s
  case refine_13 => exact phaseWord_toNat s
  all_goals rfl

/-- Settles O44: none of the six is CMD or a BLK offset, so the write takes effect at any time. -/
theorem registerWritesTakeEffect : Obligations.RegisterWritesTakeEffect := by
  intro s off v rest hin
  have hwrite (hlegal : off % 4 = 0 ∧ off < 0x100) (hcmd : off ≠ cmdOffset)
      (hblk : isBlkOffset off = false) :
      step s = .next (writeRegister off v { s with inputs := rest, bus := .written }) :=
    (step_access hin).trans (hostAccess_reg_write hlegal hcmd (by rw [hblk, Bool.and_false]))
  refine ⟨?_, ?_, ?_, ?_, ?_, ?_⟩ <;> rintro rfl
  case refine_1 =>
    have hdone : (s.statusDone && !v.getLsbD 1) = if v.getLsbD 1 then false else s.statusDone := by
      cases v.getLsbD 1 <;> simp
    rw [hwrite (by decide) (by decide) rfl, ← hdone]
    rfl
  case refine_2 =>
    refine ⟨_, hwrite (by decide) (by decide) rfl, fun k hk => ?_⟩
    have hbit : (s.err &&& ~~~(v.extractLsb' 0 6)).getLsbD k =
        (s.err.getLsbD k && !v.getLsbD k) := by
      simp [hk]
    refine hbit.trans ?_
    cases v.getLsbD k <;> simp
  all_goals exact hwrite (by decide) (by decide) rfl

theorem writeRegister_ignored {off : Nat} (v : Word) (s : State) (halign : off % 4 = 0)
    (h : off = 0x000 ∨ (0x020 ≤ off ∧ off ≤ 0x03C) ∨ 0x050 ≤ off) : writeRegister off v s = s := by
  unfold writeRegister
  split
  case h_11 => rfl
  all_goals exfalso; omega

/-- Settles O45: the offsets are those that `writeRegister` leaves out. -/
theorem readOnlyWritesAreIgnored : Obligations.ReadOnlyWritesAreIgnored := by
  intro s off v rest hin halign hlt hoff
  have hcmd : off ≠ cmdOffset := by unfold cmdOffset; omega
  have hblk : isBlkOffset off = false := by
    rw [← Bool.not_eq_true, isBlkOffset_iff]; omega
  rw [step_access hin, hostAccess_reg_write ⟨halign, hlt⟩ hcmd (by rw [hblk, Bool.and_false]),
    writeRegister_ignored v _ halign hoff]

/-! ### The block register -/

/-- The block register with word `i` replaced (R52). -/
theorem lane_of_blkWord {s t : State} {i : Fin 4} {v : Word}
    (h : ∀ j : Fin 4, blkWord t j.val = if j = i then v else blkWord s j.val) (l : Fin 16) :
    t.lane l = if l.val / 4 = i.val then v.extractLsb' (8 * (l.val % 4)) 8 else s.lane l := by
  have hj := h ⟨l.val / 4, by omega⟩
  simp only [Fin.ext_iff] at hj
  rw [State.lane, hj]
  split <;> rfl

/-- Settles O46: BLKi is one word of the block register, whose lanes are the bytes of the word. -/
theorem blockRegisterWriteReplacesFourLanes : Obligations.BlockRegisterWriteReplacesFourLanes := by
  intro s i v rest hin hidle
  have hcmd : 0x040 + 4 * i.val ≠ cmdOffset := by unfold cmdOffset; omega
  have hstep := (step_access hin).trans (hostAccess_reg_write (s := { s with inputs := rest })
    ⟨by omega, by omega⟩ hcmd (Bool.and_eq_false_iff.mpr (.inl hidle)))
  fin_cases i
  all_goals
    refine ⟨_, _, _, _, hstep, lane_of_blkWord fun j => ?_⟩
    fin_cases j <;> rfl

/-! ### Buffer memory, idle -/

/-- Settles O47: the bytes stored are `bytesOfWord`, from the offset on. -/
theorem bufferWriteIsLittleEndian : Obligations.BufferWriteIsLittleEndian := by
  intro s off n v rest hin hwidth halign hfits hidle
  have hstep := (step_access hin).trans
    (hostAccess_buf_write (s := { s with inputs := rest }) (v := v) ⟨hwidth, halign, hfits⟩ hidle)
  have houtside := Memory.sameOutside_setBytes s.mem off (bytesOfWord n v)
  rw [bytesOfWord_length] at houtside
  refine ⟨_, hstep, fun k hk => ?_, houtside⟩
  have hk' : k < (bytesOfWord n v).length := by rwa [bytesOfWord_length]
  rw [Memory.get_setBytes_inside _ _ _ _ hk', bytesOfWord_getElem]

/-- Settles O48: the reply is the word of the bytes fetched, each written one as it is. -/
theorem bufferReadIsLittleEndian : Obligations.BufferReadIsLittleEndian := by
  intro s off n rest hin hwidth halign hfits hidle
  have hstep := (step_access hin).trans (hostAccess_buf_read (s := { s with inputs := rest })
    ⟨hwidth, halign, hfits⟩ hidle)
  obtain ⟨d, hd, hlen⟩ := fetchBytes_spec n off { s with inputs := rest }
  rw [replyBytes, hd] at hstep
  refine ⟨_, d, hstep, ?_, fun k b hk hb => ?_⟩
  · have := wordOfBytes_lt (fetchBytes n off { s with inputs := rest }).1 (by omega)
    rwa [hlen] at this
  · have hbyte := fetchBytes_written n off { s with inputs := rest } k b hk hb
    rw [List.getElem?_eq_getElem (by omega), Option.some.injEq] at hbyte
    rw [wordOfBytes_byte _ k (by omega) (by omega), hbyte]

/-! ### Buffer memory and BLK, busy -/

/-- Settles O49: the access is discarded, and `recordError` touches ERR alone. -/
theorem bufferWriteWhileBusyIsDiscarded : Obligations.BufferWriteWhileBusyIsDiscarded := by
  intro s r off n v rest hin hbusy hheld
  exact (step_access hin).trans (hostAccess_write_held (s := { s with inputs := rest }) hheld hbusy)

/-- Settles O50: the reply is the word of `n` draws. -/
theorem bufferReadWhileBusyHasNoEffect : Obligations.BufferReadWhileBusyHasNoEffect := by
  intro s r off n rest hin hbusy hheld
  refine ⟨_, _, (step_access hin).trans
    (hostAccess_read_held (s := { s with inputs := rest }) hheld hbusy), ?_⟩
  have hlen : (drawBytes n { s with inputs := rest }).1.length = n := by simp [drawBytes]
  have := wordOfBytes_lt _ (hlen.trans_le (HeldWhileBusy.width_le hheld))
  rwa [hlen] at this

/-! ### The address space -/

/-- Settles O56: the offset from a base that is not below the address, in a window that the other
does not meet. -/
theorem hostAddressesReachTheirRegion : Obligations.HostAddressesReachTheirRegion := by
  intro c hapart
  refine ⟨fun off hoff => ?_, fun off hoff => ?_, fun a => ?_⟩
  · rw [regionOf, hostAddress, if_pos ⟨by omega, by omega⟩, Nat.add_sub_cancel_left]
  · rw [regionOf, hostAddress, if_neg (by omega), if_pos ⟨by omega, by omega⟩,
      Nat.add_sub_cancel_left]
  · unfold regionOf
    split_ifs with hreg hbuf
    · simp [hreg]
    · simp [hbuf]
    · exact iff_of_true rfl ⟨hreg, hbuf⟩

end Sys2Proof.Machine
end

section
/-! The two memory translations as a whole on written source cells (R190, R191): the state after `k`
micro-steps. -/

namespace Sys2Proof.Machine

/-! ### Cells of BUFMEM and writes elsewhere -/

theorem Memory.setBytes_append (m : Memory) (a : Nat) (bs cs : List Byte) :
    m.setBytes a (bs ++ cs) = (m.setBytes a bs).setBytes (a + bs.length) cs := by
  induction bs generalizing m a with
  | nil => rfl
  | cons b bs ih =>
    rw [List.cons_append, Memory.setBytes_cons, ih, Memory.setBytes_cons, List.length_cons,
      Nat.add_assoc, Nat.add_comm 1]

theorem RangesDisjoint.mono {a n b m m' : Nat} (h : RangesDisjoint a n b m) (hm : m' ≤ m) :
    RangesDisjoint a n b m' := by
  unfold RangesDisjoint at h ⊢; omega

/-- Writing a disjoint range leaves the cells as they are. -/
theorem Holds.setBytes {m : Memory} {a b : Nat} {cells bs : List Byte} (h : Holds m a cells)
    (hdisj : RangesDisjoint a cells.length b bs.length) : Holds (m.setBytes b bs) a cells := by
  intro k hk
  rcases bs.eq_nil_or_concat with rfl | hbs
  · exact h k hk
  · have hpos : bs.length ≠ 0 := by obtain ⟨l, c, rfl⟩ := hbs; simp
    rw [Memory.get_setBytes_outside bs m b _ (by unfold RangesDisjoint at hdisj; omega)]
    exact h k hk

theorem Holds.drop {m : Memory} {a : Nat} {cells : List Byte} (h : Holds m a cells) (i : Nat) :
    Holds m (a + i) (cells.drop i) := by
  intro k hk
  rw [List.length_drop] at hk
  rw [List.getElem_drop, Nat.add_assoc]
  exact h (i + k) (by omega)

theorem Holds.take {m : Memory} {a : Nat} {cells : List Byte} (h : Holds m a cells) (n : Nat) :
    Holds m a (cells.take n) := by
  intro k hk
  rw [List.length_take] at hk
  rw [List.getElem_take]
  exact h k (by omega)

/-- No destination cell that is written is a source cell. -/
theorem OperandsAt.holds_written {s : State} {a b out : Nat} {cells result : List Byte}
    (h : OperandsAt s a cells b out) (hlen : result.length = out) (k : Nat) :
    Holds (s.mem.setBytes b (result.take k)) a cells :=
  h.written.setBytes (h.disjoint.mono (hlen ▸ List.length_take_le' k result))

/-! ### One micro-step on written cells -/

/-- A micro-step of a memory translation on source cells that were all written draws nothing. -/
theorem translateBlock_of_holds {f : Byte → Byte} {s : State} {base : Nat} {cells : List Byte}
    (hbase : s.progress.toNat = base) (hlen : cells.length = min 16 (s.outlen.toNat - base))
    (hsrc : s.srcL.toNat + base + cells.length ≤ s.cfg.bufSize)
    (hdst : s.dstL.toNat + base + cells.length ≤ s.cfg.bufSize)
    (hcells : Holds s.mem (s.srcL.toNat + base) cells) :
    translateBlock f s = .next { s with
      mem := s.mem.setBytes (s.dstL.toNat + base) (cells.map f)
      progress := BitVec.ofNat 32 (base + cells.length) } := by
  subst hbase
  have hlanes : ((cells ++ List.replicate (16 - cells.length) 0x00).map f).take cells.length =
      cells.map f := by
    rw [List.map_append, ← List.length_map (as := cells) f, List.take_left]
  refine translateBlock_eq_next_iff.mpr ⟨_, cells, s,
    { s with mem := s.mem.setBytes (s.dstL.toNat + s.progress.toNat) (cells.map f) }, hlen,
    readCells_of_holds cells _ s hsrc hcells, ?_, rfl⟩
  · rw [hlanes]
    exact writeCells_ok _ _ s (by rwa [List.length_map])

/-! ### The operation -/

/-- `s` is just after the acceptance of XL.ENC or XL.DEC with the source `cells`, and the block
alone moves. -/
structure TranslationStarted (d : Instr) (s : State) (cells : List Byte) : Prop where
  busy : s.statusBusy = true
  no_input : s.inputs = []
  latched : s.opL = d
  outlen_eq : s.outlen.toNat = cells.length
  progress_eq : s.progress = 0
  operands : OperandsAt s s.srcL.toNat cells s.dstL.toNat cells.length

/-- The state after `k` micro-steps of a translation of `cells` by `f`. -/
def translateState (f : Byte → Byte) (s : State) (cells : List Byte) (k : Nat) : State :=
  { s with
    mem := s.mem.setBytes s.dstL.toNat ((cells.map f).take (16 * k))
    progress := BitVec.ofNat 32 (min (16 * k) cells.length) }

section
variable {d : Instr} {f : Byte → Byte} {s : State} {cells : List Byte}

theorem TranslationStarted.toNat_counter (h : TranslationStarted d s cells) (k : Nat) :
    (translateState f s cells k).progress.toNat = min (16 * k) cells.length := by
  have hlt := s.outlen.isLt
  have hlen := h.outlen_eq
  show (BitVec.ofNat 32 (min (16 * k) cells.length)).toNat = _
  rw [BitVec.toNat_ofNat]
  omega

theorem translateBlock_translateState (h : TranslationStarted d s cells) {k : Nat}
    (hk : 16 * k < cells.length) :
    translateBlock f (translateState f s cells k) = .next (translateState f s cells (k + 1)) := by
  have hbase : (translateState f s cells k).progress.toNat = 16 * k := by
    rw [h.toNat_counter, min_eq_left hk.le]
  have hlen : ((cells.drop (16 * k)).take 16).length =
      min 16 ((translateState f s cells k).outlen.toNat - 16 * k) := by
    rw [List.length_take, List.length_drop, ← h.outlen_eq]; rfl
  have hblock : 16 * k + ((cells.drop (16 * k)).take 16).length ≤ cells.length := by
    rw [List.length_take, List.length_drop]; omega
  have hsrc := h.operands.src_fits
  have hdst := h.operands.dst_fits
  have hholds := h.operands.holds_written (List.length_map f) (16 * k)
  rw [translateBlock_of_holds hbase hlen
    ((Nat.add_assoc _ _ _).trans_le (Nat.add_le_add_left hblock _ |>.trans hsrc))
    ((Nat.add_assoc _ _ _).trans_le (Nat.add_le_add_left hblock _ |>.trans hdst))
    ((hholds.drop _).take _)]
  have hmem : (s.mem.setBytes s.dstL.toNat ((cells.map f).take (16 * k))).setBytes
      (s.dstL.toNat + 16 * k) (((cells.drop (16 * k)).take 16).map f) =
      s.mem.setBytes s.dstL.toNat ((cells.map f).take (16 * (k + 1))) := by
    have htake : ((cells.map f).take (16 * k)).length = 16 * k := by
      rw [List.length_take, List.length_map, min_eq_left hk.le]
    rw [Nat.mul_succ, List.take_add, Memory.setBytes_append, htake, List.map_take, List.map_drop]
  have hprogress : 16 * k + ((cells.drop (16 * k)).take 16).length =
      min (16 * (k + 1)) cells.length := by
    rw [List.length_take, List.length_drop]; omega
  simp only [translateState, hmem, hprogress]

/-- A memory translation of `cells` by the block alone: one micro-step a block of 16 (R190). -/
theorem microPath_translate (h : TranslationStarted d s cells)
    (hmicro : microOf d = translateBlock f) :
    MicroPath d ((cells.length + 15) / 16) (translateState f s cells) where
  busy _ _ := h.busy
  no_input _ _ := h.no_input
  latched _ _ := h.latched
  unfinished k hk := by
    rw [h.toNat_counter, show (translateState f s cells k).outlen.toNat = _ from h.outlen_eq]
    omega
  micro k hk := by rw [hmicro, translateBlock_translateState h (by omega)]
  finished := by
    rw [h.toNat_counter, show (translateState f s cells _).outlen.toNat = _ from h.outlen_eq]
    omega

theorem translateState_zero (h : TranslationStarted d s cells) :
    translateState f s cells 0 = s := by
  have hprogress := h.progress_eq
  cases s
  dsimp only at hprogress
  subst hprogress
  simp [translateState]

theorem translateState_last (h : TranslationStarted d s cells) :
    translateState f s cells ((cells.length + 15) / 16) = { s with
      mem := s.mem.setBytes s.dstL.toNat (cells.map f)
      progress := s.outlen } := by
  have hlast : min (16 * ((cells.length + 15) / 16)) cells.length = cells.length := by omega
  have hall : (cells.map f).take (16 * ((cells.length + 15) / 16)) = cells.map f :=
    List.take_of_length_le (by rw [List.length_map]; omega)
  have hprogress : BitVec.ofNat 32 cells.length = s.outlen := by
    rw [← h.outlen_eq, BitVec.ofNat_toNat, BitVec.setWidth_eq]
  simp only [translateState, hlast, hall, hprogress]

end

end Sys2Proof.Machine
end

section
/-! Each command as a whole (R161, R190–R193, R230, R246): the CMD write, the micro-steps, the
completion step, and nothing else changed. -/

namespace Sys2Proof.Machine

/-- The CMD write of an idle block, then the micro-steps and the completion step. -/
theorem steps_command {d : Instr} {w : Word} {n : Nat} {f : Nat → State} {s : State}
    (hidle : s.statusBusy = false) (hin : s.inputs = [.access (.write .reg 0x004 4 w)])
    (hw : decode w = .ok d) (hpresent : present d { s with inputs := [], bus := .written } = f 0)
    (hpath : MicroPath d n f) : steps (1 + n + 1) s = .next (complete (f n)) := by
  have hstep : step s = .next (f 0) := by
    rw [stepRunsDecodedCommand s w d [] hin hidle hw, ← hpresent]
    exact exec_idle d hidle
  rw [show 1 + n + 1 = (n + 1) + 1 by omega, steps_succ _ hstep, hpath.steps_complete]

/-! ### NOP and the block-register commands -/

/-- NOP has no micro-step: its path is the accepted state (R161). -/
theorem microPath_nop (s : State) (hin : s.inputs = []) :
    MicroPath .nop 0 (fun _ => accept .nop 0 s) where
  busy _ _ := rfl
  no_input _ _ := hin
  latched _ _ := rfl
  unfinished _ hk := absurd hk (by omega)
  micro _ hk := absurd hk (by omega)
  finished := le_rfl

/-- Settles O17: NOP is accepted unchecked, and its path has no micro-step. -/
theorem nopCompletesInOneBlockStep : Obligations.NopCompletesInOneBlockStep := by
  intro s hidle hin
  exact steps_command hidle hin (decode_encode .nop) (present_unchecked rfl)
    (microPath_nop { s with inputs := [], bus := .written } rfl)

/-- The states of a block-register translation: before and after its one micro-step (R192). -/
def laneState (f : Byte → Byte) (s : State) : Nat → State
  | 0 => s
  | _ + 1 => { mapLanes f s with progress := 16 }

theorem microPath_lanes {d : Instr} {f : Byte → Byte} {s : State} (hbusy : s.statusBusy = true)
    (hin : s.inputs = []) (hlatched : s.opL = d) (hout : s.outlen = 16) (hprogress : s.progress = 0)
    (hmicro : microOf d = translateLanes f) : MicroPath d 1 (laneState f s) where
  busy k _ := by cases k <;> exact hbusy
  no_input k _ := by cases k <;> exact hin
  latched k _ := by cases k <;> exact hlatched
  unfinished k hk := by
    obtain rfl : k = 0 := by omega
    simp [laneState, hout, hprogress]
  micro k hk := by
    obtain rfl : k = 0 := by omega
    rw [hmicro]; rfl
  finished := by simp [laneState, hout]

/-- Settles O26: the path of one micro-step, whose lanes are those of `mapLanes`. -/
theorem blockRegisterCommandsTranslateTheLanes :
    Obligations.BlockRegisterCommandsTranslateTheLanes := by
  intro d f s hd hidle hin
  have hword : decode (if d = .xlEncB then 0x00000003 else 0x00000004) = .ok d := by
    rcases hd with ⟨rfl, -⟩ | ⟨rfl, -⟩
    · exact decode_encode .xlEncB
    · exact decode_encode .xlDecB
  have hpath :
      MicroPath d 1 (laneState f (accept d 16 { s with inputs := [], bus := .written })) := by
    refine microPath_lanes rfl rfl rfl rfl rfl ?_
    rcases hd with ⟨rfl, rfl⟩ | ⟨rfl, rfl⟩ <;> rfl
  have hpresent : present d { s with inputs := [], bus := .written } =
      accept d 16 { s with inputs := [], bus := .written } := by
    rcases hd with ⟨rfl, -⟩ | ⟨rfl, -⟩ <;> exact present_unchecked rfl
  refine ⟨_, _, _, _, (steps_command hidle hin hword hpresent hpath).trans ?_, mapLanes_lane f s⟩
  rcases hd with ⟨rfl, -⟩ | ⟨rfl, -⟩ <;> rfl

/-! ### The memory translations -/

/-- XL.ENC and XL.DEC as a whole. -/
theorem steps_translation {d : Instr} {f : Byte → Byte} {w : Word} {s : State} {cells : List Byte}
    (hd : d = .xlEnc ∧ f = te ∨ d = .xlDec ∧ f = td) (hidle : s.statusBusy = false)
    (hin : s.inputs = [.access (.write .reg 0x004 4 w)]) (hw : decode w = .ok d)
    (hlen : s.len.toNat = cells.length)
    (hops : OperandsAt s s.src.toNat cells s.dst.toNat cells.length) :
    steps (1 + (cells.length + 15) / 16 + 1) s = .next { s with
      mem := s.mem.setBytes s.dst.toNat (cells.map f), inputs := [], bus := .written, opL := d,
      srcL := s.src, dstL := s.dst, lenL := s.len, outlen := s.len, progress := s.len, lastOp := d,
      statusDone := true, statusBusy := false } := by
  obtain ⟨hsrc, hdst, hdisj, hholds⟩ := hops
  have hop : d = .xlEnc ∨ d = .xlDec := by rcases hd with ⟨rfl, -⟩ | ⟨rfl, -⟩ <;> simp
  have hmicro : microOf d = translateBlock f := by rcases hd with ⟨rfl, rfl⟩ | ⟨rfl, rfl⟩ <;> rfl
  have hpresent := translationsAreAccepted d { s with inputs := [], bus := .written } hop hidle
    (hlen ▸ hsrc) (hlen ▸ hdst) (hlen ▸ hdisj)
  rw [exec_idle d (s := { s with inputs := [], bus := .written }) hidle] at hpresent
  rw [Host.Outcome.next.injEq] at hpresent
  have hstart : TranslationStarted d { s with
      inputs := [], bus := .written, opL := d, srcL := s.src, dstL := s.dst, lenL := s.len,
      outlen := s.len, progress := 0, lastOp := d, statusDone := false, statusBusy := true }
      cells :=
    ⟨rfl, rfl, rfl, hlen, rfl, hsrc, hdst, hdisj, hholds⟩
  rw [steps_command hidle hin hw (hpresent.trans (translateState_zero hstart).symm)
    (microPath_translate hstart hmicro), translateState_last hstart]
  rfl

/-- Settles O24: the cells written are the image of the source under TE. -/
theorem xlEncTranslatesItsSource : Obligations.XlEncTranslatesItsSource := by
  intro s cells hidle hin hlen hsrc hdst hdisj hholds
  refine ⟨_, steps_translation (.inl ⟨rfl, rfl⟩) hidle hin (decode_encode .xlEnc) hlen
    ⟨hsrc, hdst, hdisj, hholds⟩, Memory.holds_setBytes _ _ _, ?_⟩
  simpa using Memory.sameOutside_setBytes s.mem s.dst.toNat (cells.map te)

/-- Settles O25: the cells written are the image of the source under TD. -/
theorem xlDecTranslatesItsSource : Obligations.XlDecTranslatesItsSource := by
  intro s cells hidle hin hlen hsrc hdst hdisj hholds
  refine ⟨_, steps_translation (.inr ⟨rfl, rfl⟩) hidle hin (decode_encode .xlDec) hlen
    ⟨hsrc, hdst, hdisj, hholds⟩, Memory.holds_setBytes _ _ _, ?_⟩
  simpa using Memory.sameOutside_setBytes s.mem s.dst.toNat (cells.map td)

/-! ### The repacker -/

/-- The encode cursor after the last Symbol, by the bytes left over from whole groups of 3 (R237).
-/
theorem encodeCursor_last (n : Nat) :
    (6 * outLen .rpkEnc n + 5) / 8 = (if n % 3 = 1 then n + 1 else n) ∧
    BitVec.ofNat 2 (outLen .rpkEnc n) =
      if n % 3 = 0 then 0b00 else if n % 3 = 1 then 0b10 else 0b11 := by
  simp only [outLen]
  have hphase (r : Nat) (hr : (4 * n + 2) / 3 % 4 = r) :
      BitVec.ofNat 2 ((4 * n + 2) / 3) = BitVec.ofNat 2 r :=
    BitVec.eq_of_toNat_eq (by simp only [BitVec.toNat_ofNat]; omega)
  have hn : n % 3 = 0 ∨ n % 3 = 1 ∨ n % 3 = 2 := by omega
  rcases hn with hn | hn | hn
  · rw [hphase 0 (by omega), hn]; exact ⟨by simp; omega, rfl⟩
  · rw [hphase 2 (by omega), hn]; exact ⟨by simp; omega, rfl⟩
  · rw [hphase 3 (by omega), hn]; exact ⟨by simp; omega, rfl⟩

/-- Settles O31: `microPath_rpkEnc` from the accepted state, and its cursor after the last Symbol.
-/
theorem rpkEncRepacksItsSource : Obligations.RpkEncRepacksItsSource := by
  intro s bytes hcfg hidle hin hlen hsrc hdst hdisj hholds
  obtain ⟨hpresent, hstart⟩ := started_present (d := .rpkEnc)
    (s := { s with inputs := [], bus := .written }) rfl hcfg hlen ⟨hsrc, hdst, hdisj, hholds⟩
  have hrun := steps_command hidle hin (decode_encode .rpkEnc)
    (hpresent.trans (encodeState_zero hstart rfl rfl).symm) (microPath_rpkEnc hstart)
  obtain ⟨hecur, heph⟩ := encodeCursor_last bytes.length
  have hout := Memory.sameOutside_setBytes s.mem s.dst.toNat (symbolsOf bytes)
  rw [symbolsOf_length] at hout
  refine ⟨_, hrun.trans ?_, Memory.holds_setBytes _ _ _, hout⟩
  simp only [encodeState, hecur, heph, List.take_of_length_le (symbolsOf_length bytes).le]
  rfl

/-- Settles O32: `microPath_rpkDec` from the accepted state; on Symbols the formula's bytes are
those of the stream. -/
theorem rpkDecRepacksItsSource : Obligations.RpkDecRepacksItsSource := by
  rintro s cells out hcfg hidle hin hlen rfl hsrc hdst hdisj hholds
  obtain ⟨hpresent, hstart⟩ := started_present (d := .rpkDec)
    (s := { s with inputs := [], bus := .written }) rfl hcfg hlen ⟨hsrc, hdst, hdisj, hholds⟩
  have hrun := steps_command hidle hin (decode_encode .rpkDec)
    (hpresent.trans (decodeState_zero hstart rfl rfl).symm) (microPath_rpkDec hstart)
  have hout := Memory.sameOutside_setBytes s.mem s.dst.toNat (repackedBytes cells)
  rw [repackedBytes_length] at hout
  refine ⟨_, hrun.trans ?_, Memory.holds_setBytes _ _ _, hout, fun hsymbols => ?_⟩
  · simp only [decodeState, List.take_of_length_le (repackedBytes_length cells).le]
    rfl
  · rw [← repackedBytes_of_symbols hsymbols]
    exact Memory.holds_setBytes _ _ _

end Sys2Proof.Machine
end

section
/-! The host's procedures step by step (R126, R127, R280, R282): what a STR, a RUN and an RD leave,
and how they follow each other. -/

namespace Sys2Proof.Machine

/-! ### Points of a host program -/

/-- The host's program comes from `s` to the idle state `t`, with `rest` of it left, BUFMEM `m`, and
ERR and the parameters as they were. -/
structure ComesTo (s t : State) (rest : List Input) (m : Memory) : Prop where
  reached : ∃ k, steps k s = .next t
  inputs_eq : t.inputs = rest
  idle : t.statusBusy = false
  err_eq : t.err = s.err
  cfg_eq : t.cfg = s.cfg
  mem_eq : t.mem = m

section
variable {s t u : State} {rest l : List Input} {m m' : Memory}

theorem ComesTo.trans (h : ComesTo s t l m') (h' : ComesTo t u rest m) : ComesTo s u rest m := by
  obtain ⟨⟨j, hj⟩, -, -, herr, hcfg, -⟩ := h
  obtain ⟨⟨k, hk⟩, hin, hidle, herr', hcfg', hmem⟩ := h'
  exact ⟨⟨j + k, (steps_add k j s hj).trans hk⟩, hin, hidle, herr'.trans herr,
    hcfg'.trans hcfg, hmem⟩

theorem ComesTo.refl (hidle : s.statusBusy = false) : ComesTo s s s.inputs s.mem :=
  ⟨⟨0, rfl⟩, rfl, hidle, rfl, rfl, rfl⟩

theorem RunResult.comesTo {b : Nat} {result : List Byte} {k : Nat} (hk : steps k s = .next t)
    (h : RunResult s t rest b result) : ComesTo s t rest (s.mem.setBytes b result) :=
  ⟨⟨k, hk⟩, h.inputs_eq, h.idle, h.err_eq, h.cfg_eq, h.mem_eq⟩

end

/-! ### Single accesses -/

/-- The one byte of an SB (R126). -/
theorem bytesOfWord_one (b : Byte) : bytesOfWord 1 (b.setWidth 32) = [b] := by
  simp [bytesOfWord]

section
variable {s : State} {rest : List Input} {a : Nat}

theorem step_hostSB {b : Byte} (hidle : s.statusBusy = false) (hin : s.inputs = hostSB a b :: rest)
    (hfits : a < s.cfg.bufSize) :
    step s = .next { s with inputs := rest, bus := .written, mem := s.mem.set a b } := by
  have hwrite := hostAccess_buf_write (s := { s with inputs := rest }) (off := a) (n := 1)
    (v := b.setWidth 32) ⟨.inl rfl, Nat.mod_one a, hfits⟩ hidle
  rw [bytesOfWord_one] at hwrite
  exact (step_access hin).trans hwrite

/-- STR on an idle block writes its bytes in order (R126). -/
theorem exists_comesTo_hostSTR (bs : List Byte) : ∀ {s : State} {a : Nat}, s.statusBusy = false →
    s.inputs = hostSTR a bs ++ rest → a + bs.length ≤ s.cfg.bufSize →
    ∃ t, ComesTo s t rest (s.mem.setBytes a bs) := by
  induction bs with
  | nil =>
    intro s a hidle hin _
    obtain rfl : s.inputs = rest := hin
    exact ⟨s, .refl hidle⟩
  | cons b bs ih =>
    intro s a hidle hin hfits
    rw [List.length_cons] at hfits
    have hstep := step_hostSB (rest := hostSTR (a + 1) bs ++ rest) hidle hin (by omega)
    obtain ⟨t, ht⟩ := ih (s := { s with
      inputs := hostSTR (a + 1) bs ++ rest, bus := .written, mem := s.mem.set a b })
      hidle rfl (show a + 1 + bs.length ≤ s.cfg.bufSize by omega)
    have hfirst : ComesTo s _ _ _ := ⟨⟨1, steps_succ 0 hstep⟩, rfl, hidle, rfl, rfl, rfl⟩
    exact ⟨t, hfirst.trans ht⟩

/-- RD of ERR changes nothing but the bus reply. -/
theorem exists_comesTo_hostRD_err (hidle : s.statusBusy = false)
    (hin : s.inputs = hostRD 0x00C :: rest) :
    ∃ t, ComesTo s t rest s.mem := by
  have hstep := (step_access hin).trans (hostAccess_reg_read (s := { s with inputs := rest })
    ⟨by decide, by decide⟩ (Bool.and_false _))
  exact ⟨_, ⟨1, steps_succ 0 hstep⟩, rfl, hidle, rfl, rfl, rfl⟩

end

/-! ### RUN of the four memory commands -/

/-- The cells that a memory command makes of its source (R183, R230, R248). -/
def resultOf (d : Instr) (cells : List Byte) : List Byte :=
  match d with
  | .xlEnc => cells.map te
  | .xlDec => cells.map td
  | .rpkEnc => symbolsOf cells
  | .rpkDec => repackedBytes cells
  | .nop | .xlEncB | .xlDecB => []

section
variable {s : State} {d : Instr} {cells : List Byte} {a b : Nat} {turns : List Nat}
  {rest : List Input}

theorem resultOf_length (hd : usesBuffer d = true) :
    (resultOf d cells).length = outLen d cells.length := by
  cases d <;> simp [resultOf, outLen, usesBuffer] at hd ⊢

theorem Started.translation {f : Byte → Byte} (h : Started d s cells)
    (hd : d = .xlEnc ∧ f = te ∨ d = .xlDec ∧ f = td) : TranslationStarted d s cells := by
  have hout : outLen d cells.length = cells.length := by rcases hd with ⟨rfl, -⟩ | ⟨rfl, -⟩ <;> rfl
  refine ⟨h.busy, h.no_input, h.latched, h.outlen_toNat.trans hout, h.progress_eq, ?_⟩
  have hops := h.operands
  rwa [hout] at hops

theorem exists_runResult_translation {f : Byte → Byte}
    (hd : d = .xlEnc ∧ f = te ∨ d = .xlDec ∧ f = td) (hcfg : s.cfg.wf = true)
    (hidle : s.statusBusy = false) (hin : s.inputs = hostRUN d a b cells.length turns ++ rest)
    (hops : OperandsAt s a cells b (outLen d cells.length)) :
    ∃ j t, steps j s = .next t ∧ RunResult s t rest b (cells.map f) := by
  have hout : outLen d cells.length = cells.length := by rcases hd with ⟨rfl, -⟩ | ⟨rfl, -⟩ <;> rfl
  have hmicro : microOf d = translateBlock f := by rcases hd with ⟨rfl, rfl⟩ | ⟨rfl, rfl⟩ <;> rfl
  have hstart := (started_withOperands hcfg hops).2.2.translation hd
  have halone := (microPath_translate hstart hmicro).runsAlone
  rw [translateState_zero hstart, translateState_last hstart] at halone
  refine exists_runResult hcfg hidle hin hops halone ⟨rfl, rfl, rfl⟩
    ((List.length_map f).trans hout.symm) ?_
  rw [hout, List.take_of_length_le (List.length_map f).le]
  rfl

/-- RUN of a memory command on operands that pass the checks, whatever turns the block gets (R127).
-/
theorem exists_comesTo_hostRUN (hd : usesBuffer d = true) (hcfg : s.cfg.wf = true)
    (hidle : s.statusBusy = false) (hin : s.inputs = hostRUN d a b cells.length turns ++ rest)
    (hops : OperandsAt s a cells b (outLen d cells.length)) :
    ∃ t, ComesTo s t rest (s.mem.setBytes b (resultOf d cells)) := by
  suffices ∃ j t, steps j s = .next t ∧ RunResult s t rest b (resultOf d cells) by
    obtain ⟨j, t, hj, h⟩ := this
    exact ⟨t, h.comesTo hj⟩
  cases d with
  | xlEnc => exact exists_runResult_translation (.inl ⟨rfl, rfl⟩) hcfg hidle hin hops
  | xlDec => exact exists_runResult_translation (.inr ⟨rfl, rfl⟩) hcfg hidle hin hops
  | rpkEnc => exact steps_hostRUN_rpkEnc hcfg hidle hin hops
  | rpkDec => exact steps_hostRUN_rpkDec hcfg hidle hin hops
  | nop => simp [usesBuffer] at hd
  | xlEncB => simp [usesBuffer] at hd
  | xlDecB => simp [usesBuffer] at hd

/-- The same with the read of ERR after the RUN (R280). -/
theorem exists_comesTo_hostRUN_hostRD (hd : usesBuffer d = true) (hcfg : s.cfg.wf = true)
    (hidle : s.statusBusy = false)
    (hin : s.inputs = hostRUN d a b cells.length turns ++ hostRD 0x00C :: rest)
    (hops : OperandsAt s a cells b (outLen d cells.length)) :
    ∃ t, ComesTo s t rest (s.mem.setBytes b (resultOf d cells)) := by
  obtain ⟨t, ht⟩ := exists_comesTo_hostRUN hd hcfg hidle hin hops
  obtain ⟨u, hu⟩ := exists_comesTo_hostRD_err ht.idle ht.inputs_eq
  rw [ht.mem_eq] at hu
  exact ⟨u, ht.trans hu⟩

end

/-! ### Two commands in a row -/

/-- Both procedures up to the second read of ERR: STR of the cells, RUN of `d` into the middle
buffer, RUN of `e` into the last one. -/
theorem exists_comesTo_twoRuns {s : State} {d e : Instr} {a b c : Nat} {cells : List Byte}
    {turns₁ turns₂ : List Nat} {rest : List Input} (hd : usesBuffer d = true)
    (he : usesBuffer e = true) (hcfg : s.cfg.wf = true) (hidle : s.statusBusy = false)
    (hin : s.inputs = hostSTR a cells ++ (hostRUN d a b cells.length turns₁ ++ hostRD 0x00C ::
      (hostRUN e b c (resultOf d cells).length turns₂ ++ hostRD 0x00C :: rest)))
    (ha : a + cells.length ≤ s.cfg.bufSize) (hb : b + (resultOf d cells).length ≤ s.cfg.bufSize)
    (hc : c + (resultOf e (resultOf d cells)).length ≤ s.cfg.bufSize)
    (hdisj₁ : RangesDisjoint a cells.length b (resultOf d cells).length)
    (hdisj₂ : RangesDisjoint b (resultOf d cells).length c (resultOf e (resultOf d cells)).length) :
    ∃ t, ComesTo s t rest (((s.mem.setBytes a cells).setBytes b (resultOf d cells)).setBytes c
      (resultOf e (resultOf d cells))) := by
  obtain ⟨t, ht⟩ := exists_comesTo_hostSTR cells hidle hin ha
  obtain ⟨u, hu⟩ := exists_comesTo_hostRUN_hostRD (cells := cells) hd (ht.cfg_eq ▸ hcfg) ht.idle
    ht.inputs_eq (by
      rw [← resultOf_length hd]
      exact ⟨ht.cfg_eq ▸ ha, ht.cfg_eq ▸ hb, hdisj₁, ht.mem_eq ▸ Memory.holds_setBytes _ _ _⟩)
  have hsu := ht.trans hu
  rw [ht.mem_eq] at hsu
  obtain ⟨v, hv⟩ := exists_comesTo_hostRUN_hostRD (cells := resultOf d cells) he
    (hsu.cfg_eq ▸ hcfg) hsu.idle hsu.inputs_eq (by
      rw [← resultOf_length he]
      exact ⟨hsu.cfg_eq ▸ hb, hsu.cfg_eq ▸ hc, hdisj₂, hsu.mem_eq ▸ Memory.holds_setBytes _ _ _⟩)
  rw [hsu.mem_eq] at hv
  exact ⟨v, hsu.trans hv⟩

/-! ### The result in BUFMEM -/

theorem bufferBytes_of_holds {m : Memory} {a : Nat} {bs : List Byte} (h : Holds m a bs) :
    bufferBytes m a bs.length = bs.map some := by
  refine List.ext_getElem (by simp [bufferBytes]) fun k hk hk' => ?_
  simpa [bufferBytes] using h k (by simpa using hk')

end Sys2Proof.Machine
end

section
/-! ENCODE (R280, R281, R284): the Symbols' characters and the padding. -/

namespace Sys2Proof.Machine

/-- The characters of the Symbols are their images under TE (R187). -/
theorem base64Text_eq (bs : List Byte) :
    base64Text bs = (symbolsOf bs).map te ++ List.replicate (padCount bs.length) padChar := by
  have hchar : (symbolsOf bs).map (fun c => alphabet.getD c.toNat 0) = (symbolsOf bs).map te := by
    refine List.map_congr_left fun c hc => ?_
    rw [List.getD_eq_getElem?_getD, alphabet_getElem?_toNat (symbolsOf_toNat_lt bs c hc),
      Option.getD_some]
  rw [base64Text, hchar]

/-- Whole groups of 3 bytes need no padding; 1 byte left over needs two, 2 need one (R281). -/
theorem padCount_cases (n : Nat) : (n % 3 = 0 ∧ padCount n = 0) ∨ (n % 3 = 1 ∧ padCount n = 2) ∨
    (n % 3 = 2 ∧ padCount n = 1) := by
  have hn : n % 3 = 0 ∨ n % 3 = 1 ∨ n % 3 = 2 := by omega
  rcases hn with h | h | h <;> simp [padCount, h]

theorem padCount_le (n : Nat) : padCount n ≤ 2 := by
  rcases padCount_cases n with ⟨-, h⟩ | ⟨-, h⟩ | ⟨-, h⟩ <;> omega

/-- The text has 4 characters for each group of 3 bytes begun (R280). -/
theorem encodeResultLength_eq (n : Nat) : encodeResultLength n = (n + 2) / 3 * 4 := by
  simp only [encodeResultLength, outLen]
  rcases padCount_cases n with ⟨hn, h⟩ | ⟨hn, h⟩ | ⟨hn, h⟩ <;> rw [h] <;> omega

theorem base64Text_length (bs : List Byte) :
    (base64Text bs).length = encodeResultLength bs.length := by
  simp [base64Text, encodeResultLength]

/-- ENCODE comes to its end, with the Symbols in the middle buffer and the text in the last. -/
theorem exists_comesTo_encodeProcedure {s : State} {bytes : List Byte} {inA symA outA m : Nat}
    {turns₁ turns₂ : List Nat} (hcfg : s.cfg.wf = true) (hidle : s.statusBusy = false)
    (hm : m = outLen .rpkEnc bytes.length)
    (hin : s.inputs = encodeProcedure inA symA outA bytes turns₁ turns₂)
    (hinA : inA + bytes.length ≤ s.cfg.bufSize) (hsymA : symA + m ≤ s.cfg.bufSize)
    (houtA : outA + (m + 2) ≤ s.cfg.bufSize) (hdisj₁ : RangesDisjoint inA bytes.length symA m)
    (hdisj₂ : RangesDisjoint symA m outA (m + 2)) :
    ∃ t, ComesTo s t [] (((s.mem.setBytes inA bytes).setBytes symA (symbolsOf bytes)).setBytes outA
      (base64Text bytes)) := by
  have hsymbols : (symbolsOf bytes).length = m := (symbolsOf_length bytes).trans hm.symm
  have hchars : ((symbolsOf bytes).map te).length = m := (List.length_map te).trans hsymbols
  have hpad := padCount_le bytes.length
  obtain ⟨t, ht⟩ := exists_comesTo_twoRuns (d := .rpkEnc) (e := .xlEnc) (s := s)
    (turns₁ := turns₁) (turns₂ := turns₂)
    (rest := hostSTR (outA + m) (List.replicate (padCount bytes.length) padChar)) rfl rfl hcfg hidle
    (by rw [hin, encodeProcedure, ← hm]; simp [resultOf, hsymbols]) hinA (hsymbols.symm ▸ hsymA)
    (show outA + ((symbolsOf bytes).map te).length ≤ s.cfg.bufSize by omega)
    (hsymbols.symm ▸ hdisj₁)
    (show RangesDisjoint symA (symbolsOf bytes).length outA ((symbolsOf bytes).map te).length by
      rw [hsymbols, hchars]; exact hdisj₂.mono (by omega))
  obtain ⟨u, hu⟩ := exists_comesTo_hostSTR (rest := []) _ ht.idle
    (ht.inputs_eq.trans (List.append_nil _).symm)
    (by rw [ht.cfg_eq, List.length_replicate]; omega)
  refine ⟨u, ?_⟩
  have hsu := ht.trans hu
  rw [ht.mem_eq, ← hchars] at hsu
  rw [base64Text_eq, Memory.setBytes_append]
  exact hsu

/-- Settles O58: the three writes of ENCODE, each of which leaves the source as it is. -/
theorem encodeProcedureWritesBase64 : Obligations.EncodeProcedureWritesBase64 := by
  intro s bytes inA symA outA m turns₁ turns₂ hcfg hidle hm hin hinA hsymA houtA hdisj₁ hdisj₂
    hdisj₃
  obtain ⟨t, ⟨k, hk⟩, hend, htidle, herr, -, hmem⟩ :=
    exists_comesTo_encodeProcedure hcfg hidle hm hin hinA hsymA houtA hdisj₁ hdisj₃
  have hsymbols : (symbolsOf bytes).length = m := (symbolsOf_length bytes).trans hm.symm
  have htext : (base64Text bytes).length ≤ m + 2 := by
    have := padCount_le bytes.length
    rw [base64Text_length, encodeResultLength, ← hm]
    omega
  refine ⟨k, t, hk, hend, htidle, herr, ?_, ?_, ?_, fun x hx₁ hx₂ hx₃ => ?_⟩
  · rw [hmem, ← base64Text_length]
    exact bufferBytes_of_holds (Memory.holds_setBytes _ _ _)
  · rw [base64Text_length, encodeResultLength_eq]
  · rw [hmem]
    exact ((Memory.holds_setBytes _ _ _).setBytes (hsymbols.symm ▸ hdisj₁)).setBytes
      (hdisj₂.mono htext)
  · rw [hmem, Memory.get_setBytes_outside _ _ _ _ (by omega),
      Memory.get_setBytes_outside _ _ _ _ (by omega), Memory.get_setBytes_outside _ _ _ _ hx₁]

end Sys2Proof.Machine
end

section
/-! DECODE (R282, R283, R284, R286): the bytes of any text, and the buffer that its Base64 text came
from. -/

namespace Sys2Proof.Machine

/-! ### Any text -/

/-- DECODE comes to its end with the bytes of the text in the last buffer. -/
theorem exists_comesTo_decodeProcedure {s : State} {text : List Byte} {inA symA outA m : Nat}
    {turns₁ turns₂ : List Nat} (hcfg : s.cfg.wf = true) (hidle : s.statusBusy = false)
    (hm : m = 3 * text.length / 4)
    (hin : s.inputs = decodeProcedure inA symA outA text turns₁ turns₂)
    (hinA : inA + text.length ≤ s.cfg.bufSize) (hsymA : symA + text.length ≤ s.cfg.bufSize)
    (houtA : outA + m ≤ s.cfg.bufSize)
    (hdisj₁ : RangesDisjoint inA text.length symA text.length)
    (hdisj₂ : RangesDisjoint symA text.length outA m) :
    ∃ t, ComesTo s t [] (((s.mem.setBytes inA text).setBytes symA (text.map td)).setBytes outA
      (repackedBytes (text.map td))) := by
  have hcells : (text.map td).length = text.length := List.length_map td
  have hbytes : (repackedBytes (text.map td)).length = m := by
    rw [repackedBytes_length, hcells, hm]; rfl
  exact exists_comesTo_twoRuns (d := .xlDec) (e := .rpkDec) (turns₁ := turns₁) (turns₂ := turns₂)
    rfl rfl hcfg hidle (by rw [hin, decodeProcedure]; simp [resultOf]) hinA (hcells.symm ▸ hsymA)
    (hbytes.symm ▸ houtA) (hcells.symm ▸ hdisj₁)
    (show RangesDisjoint symA (text.map td).length outA (repackedBytes (text.map td)).length by
      rwa [hcells, hbytes])

/-- Settles O59: the strip of R283 shortens the result that is read. -/
theorem decodeProcedureRunsOnEveryText : Obligations.DecodeProcedureRunsOnEveryText := by
  intro s text inA symA outA m turns₁ turns₂ hcfg hidle hm hin hinA hsymA houtA hdisj₁ _ hdisj₃
  obtain ⟨t, ⟨k, hk⟩, hend, htidle, herr, -, hmem⟩ :=
    exists_comesTo_decodeProcedure hcfg hidle hm hin hinA hsymA houtA hdisj₁ hdisj₃
  refine ⟨k, t, hk, hend, htidle, herr, ?_⟩
  have hlen : ((repackedBytes (text.map td)).take (m - stripCount text)).length =
      decodeResultLength text := by
    rw [List.length_take, repackedBytes_length, List.length_map, decodeResultLength, hm]
    exact min_eq_left (Nat.sub_le _ _)
  rw [hmem, ← hlen]
  exact bufferBytes_of_holds ((Memory.holds_setBytes _ _ _).take _)

/-! ### The Base64 text of a buffer -/

/-- The formula's bytes depend on no cell beyond their own. -/
theorem repackedBytes_append_take (cells rest : List Byte) :
    (repackedBytes (cells ++ rest)).take (outLen .rpkDec cells.length) = repackedBytes cells := by
  refine List.ext_getElem ?_ fun k hk hk' => ?_
  · simp [outLen]; omega
  · have hlast : k + k / 3 + 1 < cells.length := by
      simp only [repackedBytes_length, outLen] at hk'; omega
    have hcell (j : Nat) (hj : j < cells.length) : (cells ++ rest).getD j 0 = cells.getD j 0 := by
      rw [List.getD_eq_getElem?_getD, List.getElem?_append_left hj, ← List.getD_eq_getElem?_getD]
    simp only [repackedBytes, List.getElem_take, List.getElem_map, List.getElem_range]
    rw [hcell _ (by omega), hcell _ hlast]

theorem leadingPads_replicate_append {l : List Byte} (hl : ∀ c ∈ l, c ≠ padChar) :
    ∀ {cap p : Nat}, p ≤ cap → leadingPads cap (List.replicate p padChar ++ l) = p := by
  intro cap
  induction cap with
  | zero =>
    intro p hp
    obtain rfl : p = 0 := by omega
    simp [leadingPads]
  | succ cap ih =>
    intro p hp
    cases p with
    | zero =>
      cases l with
      | nil => rfl
      | cons c l => exact if_neg (hl c List.mem_cons_self)
    | succ p =>
      rw [List.replicate_succ, List.cons_append, leadingPads, if_pos rfl, ih (by omega)]

/-- No character of a Symbol is `=`. -/
theorem te_ne_padChar {v : Byte} (hv : v.toNat < 64) : te v ≠ padChar := by
  have hpad : padChar ∉ alphabet := by decide
  exact fun h => hpad ((mem_alphabet_iff _).mpr ⟨v, hv, h⟩)

section
variable (bytes : List Byte) {p : Nat}

/-- The Symbols' characters with at most two `=` after them: the strip finds the `=` (R283). -/
theorem stripCount_symbolText (hp : p ≤ 2) :
    stripCount ((symbolsOf bytes).map te ++ List.replicate p padChar) = p := by
  rw [stripCount, List.reverse_append, List.reverse_replicate]
  refine leadingPads_replicate_append (fun c hc => ?_) hp
  obtain ⟨v, hv, rfl⟩ := List.mem_map.mp (List.mem_reverse.mp hc)
  exact te_ne_padChar (symbolsOf_toNat_lt bytes v hv)

/-- TD takes the characters back to the Symbols and leaves `=` as it is (R187). -/
theorem map_td_symbolText :
    ((symbolsOf bytes).map te ++ List.replicate p padChar).map td =
      symbolsOf bytes ++ List.replicate p padChar := by
  have hpad : td padChar = padChar := by decide
  have hsymbols : (symbolsOf bytes).map (td ∘ te) = symbolsOf bytes := by
    refine (List.map_congr_left fun v hv => ?_).trans (List.map_id _)
    exact td_te (symbolsOf_toNat_lt bytes v hv)
  rw [List.map_append, List.map_map, hsymbols, List.map_replicate, hpad]

/-- The buffer comes first among the bytes of its padded Symbols (R247). -/
theorem repackedBytes_padded_take :
    (repackedBytes (symbolsOf bytes ++ List.replicate p padChar)).take bytes.length = bytes := by
  have htake := repackedBytes_append_take (symbolsOf bytes) (List.replicate p padChar)
  rwa [symbolsOf_length, outLen_rpkDec_rpkEnc, repackedBytes_of_symbols (symbolsOf_toNat_lt bytes),
    bytesOfSymbols_symbolsOf] at htake

end

/-- The padding adds as many bytes as the strip takes off (R283). -/
theorem outLen_rpkDec_padded {n p : Nat} (hp : p = padCount n ∨ p = 0) :
    outLen .rpkDec (outLen .rpkEnc n + p) - p = n := by
  rcases hp with rfl | rfl
  · simp only [outLen]
    rcases padCount_cases n with ⟨hn, h⟩ | ⟨hn, h⟩ | ⟨hn, h⟩ <;> rw [h] <;> omega
  · exact outLen_rpkDec_rpkEnc n

/-- Settles O60: both texts are the Symbols' characters and some `=`; the strip takes off the bytes
that the `=` add. -/
theorem decodeProcedureInvertsEncode : Obligations.DecodeProcedureInvertsEncode := by
  intro s bytes text inA symA outA m turns₁ turns₂ hcfg hidle htext hm hin hinA hsymA houtA hdisj₁ _
    hdisj₃
  obtain ⟨p, hp, htext⟩ : ∃ p, (p = padCount bytes.length ∨ p = 0) ∧
      text = (symbolsOf bytes).map te ++ List.replicate p padChar := by
    rw [base64Text_eq] at htext
    rcases htext with rfl | rfl
    · exact ⟨_, .inl rfl, rfl⟩
    · exact ⟨0, .inr rfl, by rw [List.take_left' (by simp), List.replicate_zero, List.append_nil]⟩
  have hp2 : p ≤ 2 := by have := padCount_le bytes.length; omega
  obtain ⟨t, ⟨k, hk⟩, hend, htidle, herr, -, hmem⟩ :=
    exists_comesTo_decodeProcedure hcfg hidle hm hin hinA hsymA houtA hdisj₁ hdisj₃
  refine ⟨k, t, hk, hend, htidle, herr, ?_, ?_⟩
  · have hlen : text.length = outLen .rpkEnc bytes.length + p := by simp [htext]
    rw [decodeResultLength, hlen, htext, stripCount_symbolText bytes hp2, outLen_rpkDec_padded hp]
  · have hbytes : Holds t.mem outA (repackedBytes (text.map td)) :=
      hmem ▸ Memory.holds_setBytes _ _ _
    rw [htext, map_td_symbolText] at hbytes
    simpa only [repackedBytes_padded_take] using hbytes.take bytes.length

end Sys2Proof.Machine
end
